-- ==== Sys2Proof/Word.lean ====
section
/-! DEFINITION. The fixed-width words of the engine: the byte of the program space and the 64 bits of a real value. -/

namespace Sys2Proof

/-- A byte of the program space, bits 7 to 0 (R12, R50). -/
abbrev Byte := BitVec 8

/-- The default of `REAL`, the type of real values: the 64 bits of an IEEE 754 binary64 datum. R10 makes `REAL` an
argument of the engine (the type `R` of `Machine.State R`) and gives this format as the value this hardware takes:
`Machine.State` alone is `Machine.State Binary64`. PRESUMED in the bit layout (G1: from general knowledge, not in the source); unsafe if the
hardware's format differs; log entry 2. -/
abbrev Binary64 := BitVec 64

end Sys2Proof
end

