-- ==== Sys2Proof/Config.lean ====
section
/-! DEFINITION. What an implementation fixes (the parameters of R10 that are data) and the one free value. -/

namespace Sys2Proof

/-- The engine's data parameters (R10, R34). A model takes each as an argument: `State` carries them, no
instruction and no host operation changes them, and every statement over all states holds for every choice.
DESIGN CHOICE, safe; log entry 1. -/
structure Params where
  /-- `MEM_SIZE`: the number of cells of the linear memory. -/
  memSize : Nat
  /-- `STACK_CAPACITY`: the most values the operand stack holds; `none` is unbounded. -/
  stackCapacity : Option Nat
  /-- `PROG_MAX_BYTES`: the largest program `load` accepts, in bytes; `none` is unbounded. -/
  progMaxBytes : Option Nat
  deriving DecidableEq, Repr

/-- The values this hardware takes (R10): 1024 cells, unbounded stack, unbounded program. -/
def Params.default : Params := { memSize := 1024, stackCapacity := none, progMaxBytes := none }

/-- FREE VALUE. The sign (bit 51) and payload (bits 50 to 0) of the NaN that the square root of a NaN gives. The
spec states none (it says that NaN cannot arise from reset, R164). DESIGN CHOICE, safe: it has no body, so nothing
can be proved of it; log entry 3. -/
opaque Config.sqrtNaNBits : Binary64 → BitVec 52

end Sys2Proof
end

