-- ==== Sys2Proof/Syntax.lean ====
section
/-! DEFINITION. The instructions: one constructor per row of the opcode table (R2, R78, R79). -/

namespace Sys2Proof

/-- A decoded instruction (R79). `b` is the operand `B`, an unsigned integer (R75, R76); `Instr.wellFormed` says
that it fits its field. -/
inductive Instr where
  /-- LOAD_CONST, opcode 0x5A, format F16: push the constant `b`. -/
  | loadConst (b : Nat)
  /-- READ_MEM, opcode 0x01, format F8: push the cell at the popped index plus `b`. -/
  | readMem (b : Nat)
  /-- WRITE_MEM, opcode 0x3E, format F0: pop a value, pop an index, store. -/
  | writeMem
  /-- SQRT, opcode 0x89, format F8: root of the cell at one popped index into the cell at another plus `b`. -/
  | sqrt (b : Nat)
  deriving DecidableEq, Repr

end Sys2Proof
end

