-- ==== Sys2Proof/WellFormed.lean ====
section
/-! DEFINITION. Well-formedness of instructions, programs and parameters. -/

namespace Sys2Proof

/-- The operand fits its field: 16 bits for LOAD_CONST, 8 bits for READ_MEM and SQRT (R75, R76, R93 check 4). -/
def Instr.wellFormed : Instr → Bool
  | .loadConst b => decide (b ≤ 65535)
  | .readMem b => decide (b ≤ 255)
  | .writeMem => true
  | .sqrt b => decide (b ≤ 255)

/-- A program is a whole number of 6-byte records and fits the engine (R82, R201). -/
def programWellFormed (p : Params) (prog : List Byte) : Bool :=
  prog.length % 6 == 0 &&
    match p.progMaxBytes with
    | none => true
    | some most => decide (prog.length ≤ most)

/-- The parameters lie in the ranges of R10: at least one cell, a capacity of at least one value where the stack is
bounded, and a program limit that is a multiple of 6. -/
def Params.wellFormed (p : Params) : Bool :=
  decide (1 ≤ p.memSize) &&
  (match p.stackCapacity with
    | none => true
    | some c => decide (1 ≤ c)) &&
  match p.progMaxBytes with
  | none => true
  | some most => most % 6 == 0

end Sys2Proof
end

