-- ==== Sys2Proof/Decode.lean ====
section
/-! DEFINITION. The decoder of one record (R79), total on any bytes; the encoder of one instruction (R94); and the
table's numbering of a record's bits (R71). -/

namespace Sys2Proof

/-- What a record's bytes decode to. -/
inductive Decoded where
  /-- One of the four instructions. -/
  | instr (i : Instr)
  /-- An unassigned opcode byte (R80). -/
  | illegal (opcode : Byte)
  /-- Not the 6 bytes of a record: no fetch from an accepted program gives this (R53). -/
  | notARecord
  deriving DecidableEq, Repr

/-- The number `hi ‖ lo` of two bytes (R12, R75). -/
def beU16 (hi lo : Byte) : Nat := hi.toNat * 256 + lo.toNat

/-- R79: the opcode byte alone selects; bytes 3 to 5 are never read. -/
def decodeRecord (b0 b1 b2 _b3 _b4 _b5 : Byte) : Decoded :=
  if b0 = 0x5A#8 then .instr (.loadConst (beU16 b1 b2))
  else if b0 = 0x01#8 then .instr (.readMem b1.toNat)
  else if b0 = 0x3E#8 then .instr .writeMem
  else if b0 = 0x89#8 then .instr (.sqrt b1.toNat)
  else .illegal b0

/-- The decoder on a list of bytes: exactly 6 bytes are a record (R70). -/
def decode : List Byte → Decoded
  | [b0, b1, b2, b3, b4, b5] => decodeRecord b0 b1 b2 b3 b4 b5
  | _ => .notARecord

/-- The opcode byte of an instruction (R78). -/
def Instr.opcode : Instr → Byte
  | .loadConst _ => 0x5A#8
  | .readMem _ => 0x01#8
  | .writeMem => 0x3E#8
  | .sqrt _ => 0x89#8

/-- The six bytes of an instruction's record, padding zero (R71, R94). -/
def encode : Instr → List Byte
  | .loadConst b => [0x5A#8, BitVec.ofNat 8 (b / 256), BitVec.ofNat 8 (b % 256), 0#8, 0#8, 0#8]
  | .readMem b => [0x01#8, BitVec.ofNat 8 b, 0#8, 0#8, 0#8, 0#8]
  | .writeMem => [0x3E#8, 0#8, 0#8, 0#8, 0#8, 0#8]
  | .sqrt b => [0x89#8, BitVec.ofNat 8 b, 0#8, 0#8, 0#8, 0#8]

/-- The bytes of the 48-bit record word `W`: byte `k` of the record is `W[47-8k : 40-8k]` (R71). -/
def recordOfWord (w : Nat) : List Byte :=
  [BitVec.ofNat 8 (w / 2 ^ 40), BitVec.ofNat 8 (w / 2 ^ 32), BitVec.ofNat 8 (w / 2 ^ 24),
   BitVec.ofNat 8 (w / 2 ^ 16), BitVec.ofNat 8 (w / 2 ^ 8), BitVec.ofNat 8 w]

/-- The record whose bits are `w`, numbered as the opcode table numbers them: `W` is ONE word of 48 bits, its bit 0
the least significant bit of byte 5, its opcode in bits 47 to 40 (R71; the table's match and mask). Bits at and above
`nbits` are 0. DEDUCED; log entry 7. -/
def tableRecord (nbits w : Nat) : List Byte := recordOfWord (w % 2 ^ nbits)

/-- The instruction the decoder reads from the table's word; none where it refuses. -/
def decodeTableWord (nbits w : Nat) : Option Instr :=
  match decode (tableRecord nbits w) with
  | .instr i => some i
  | .illegal _ => none
  | .notARecord => none

/-- The mnemonic of an instruction (R78, R96: the trace's key). -/
def Instr.mnemonic : Instr → String
  | .loadConst _ => "LOAD_CONST"
  | .readMem _ => "READ_MEM"
  | .writeMem => "WRITE_MEM"
  | .sqrt _ => "SQRT"

end Sys2Proof
end

