-- ==== Sys2Proof/Machine/State.lean ====
section
/-! DEFINITION. The state of the engine: `(prog, pc, stack, mem, status)` of 10_state.md, with the engine's
parameters beside it; the reset state; and the reasons for which a step has no next state. The type `REAL` of real
values is the argument `R` of every type here (R10); where it is not given it is `Binary64`, the default. -/

namespace Sys2Proof.Machine

/-- A value on the stack or in a memory cell, tagged (R13). -/
inductive Value (R : Type := Binary64) where
  /-- `Int(n)`, `n` a mathematical integer. -/
  | int (n : Int)
  /-- `Real(r)`, `r` of type `REAL`. -/
  | real (r : R)
  deriving DecidableEq, Repr

/-- `Int(0)`, what every cell holds after reset (R27). -/
def Value.zero {R : Type} : Value R := .int 0

/-- The value is `Int(0)`. -/
def Value.isZero {R : Type} : Value R → Bool
  | .int n => n == 0
  | .real _ => false

/-- The data memory (R26, R50): the cells that do not hold `Int(0)`, as pairs of an index and a value, indices
strictly rising. A cell that is not listed holds `Int(0)`, the reset content (R27, R62; log entries 15, 18). -/
abbrev Memory (R : Type := Binary64) := List (Nat × Value R)

/-- The fault kinds (R171). -/
inductive FaultKind where
  /-- An opcode byte that is none of the four is executed (R172). -/
  | illegalOpcode
  /-- `pop()` on an empty stack (R173). -/
  | stackUnderflow
  /-- An index outside `[0, MEM_SIZE)` (R174). -/
  | addressOutOfBounds
  /-- A real value popped as an index (R175). -/
  | addressNotInteger
  /-- A negative source value of SQRT (R177). -/
  | sqrtDomain
  /-- `push` onto a full bounded stack (R178). -/
  | stackOverflow
  deriving DecidableEq, Repr

/-- The fault record (R31). -/
structure FaultRecord (R : Type := Binary64) where
  /-- The kind of the fault. -/
  kind : FaultKind
  /-- `fault_pc`: the offset of the faulting record. -/
  faultPc : Nat
  /-- `fault_opcode`: the program's byte at `fault_pc`; `none` only where the program has no such byte, which no
  step reaches (log entry 9). -/
  faultOpcode : Option Byte
  /-- `fault_addr`: the computed index, for `AddressOutOfBounds`; absent otherwise. -/
  faultAddr : Option Int
  /-- `fault_value`: the offending value, for `AddressNotInteger` and `SqrtDomain`; absent otherwise. -/
  faultValue : Option (Value R)
  deriving DecidableEq, Repr

/-- The status register (R30). -/
inductive Status (R : Type := Binary64) where
  /-- `RUNNING`: the engine has a next step. -/
  | running
  /-- `DONE`: normal termination. -/
  | done
  /-- `FAULT(kind, info)`: the run stopped at a fault. -/
  | fault (r : FaultRecord R)
  deriving DecidableEq, Repr

/-- `status = RUNNING` (R110). -/
def Status.isRunning {R : Type} : Status R → Bool
  | .running => true
  | .done => false
  | .fault _ => false

/-- The engine's state, over the type `R` of real values. -/
structure State (R : Type := Binary64) where
  /-- The parameters of R10 that are data; the model's own field, constant (log entry 1). -/
  params : Params
  /-- The loaded program (R28); `none` before the first load (R213). -/
  prog : Option (List Byte)
  /-- The byte offset of the next record to fetch (R21). -/
  pc : Nat
  /-- The operand stack (R24), the TOP FIRST (log entry 18). -/
  stack : List (Value R)
  /-- The data memory (R26). -/
  mem : Memory R
  /-- The run status, with the fault record (R30, R31). -/
  status : Status R
  deriving DecidableEq, Repr

/-- The machine right after reset (R202, R213), with the parameters this hardware takes (R10). No program is loaded:
the spec puts none into the machine (R213; log entry 6). -/
def State.reset : State :=
  { params := Params.default, prog := none, pc := 0, stack := [], mem := [], status := .running }

/-- The reasons for which `step` is stuck. A run-time fault of the engine is NOT here: it is a next state whose
status is `FAULT(kind, info)` (R176; log entry 5). -/
inductive Fault where
  /-- Raised by `step` alone, in a state whose status is `DONE` or `FAULT(…)`: the engine has no step from it (R110,
  R180). Safe. -/
  | terminated
  /-- Raised by `step` alone, where fewer than 6 bytes of the program are left at `pc`; this cannot occur, because
  `pc` and the program's length are multiples of 6 (R53, R112; log entry 19). Safe. -/
  | partialRecord
  deriving DecidableEq, Repr

/-- The reasons for which `step` gives no meaning. -/
inductive Refusal where
  /-- Raised by an arm of `exec` whose instruction has no meaning yet; no arm does. Safe. -/
  | notModelled (mnemonic : String)
  /-- Raised by `step` and `hostRun`, where no program has been loaded: running is not defined then (R213). Safe. -/
  | noProgram
  deriving DecidableEq, Repr

end Sys2Proof.Machine
end

