-- ==== Sys2Proof/Machine/Memory.lean ====
section
/-! DEFINITION. The data memory: `MemRead`, `MemWrite` (R14) and its canonical form. -/

namespace Sys2Proof.Machine

/-- `MemRead(i, 1)`: the value of cell `i`; a cell that is not listed holds `Int(0)` (R27, R62). -/
def Memory.read {R : Type} : Memory R → Nat → Value R
  | [], _ => Value.zero
  | (a, v) :: m, i => if a = i then v else Memory.read m i

/-- `MemWrite(i, 1, v)`: set cell `i` to `v`, tag included (R27), keeping the canonical form: the write of `Int(0)`
leaves no entry. -/
def Memory.write {R : Type} : Memory R → Nat → Value R → Memory R
  | [], i, v => if v.isZero then [] else [(i, v)]
  | (a, w) :: m, i, v =>
    if i < a then (if v.isZero then (a, w) :: m else (i, v) :: (a, w) :: m)
    else if i = a then (if v.isZero then m else (i, v) :: m)
    else (a, w) :: Memory.write m i v

/-- The canonical form: indices strictly rising, and no entry equal to what an unlisted cell holds. -/
abbrev Memory.wf {R : Type} (m : Memory R) : Prop :=
  m.Pairwise (fun c d => c.1 < d.1) ∧ ∀ c ∈ m, c.2 ≠ Value.zero

/-- Every listed cell is one of the `size` cells of the memory (R26). -/
abbrev Memory.within {R : Type} (m : Memory R) (size : Nat) : Prop := ∀ c ∈ m, c.1 < size

end Sys2Proof.Machine
end

