-- ==== Sys2Proof/Machine/Ops.lean ====
section
/-! DEFINITION. The operations every instruction is made of: `ProgByte`, `push`, `pop`, `raise` (R14), the entry into
a fault (R176) and the completion of an instruction (R113). There is no return from a fault (R180). -/

namespace Sys2Proof.Machine

/-- The answer of a step. -/
abbrev Answer (R : Type := Binary64) := Host.Outcome (State R) Fault Refusal

/-- A fault raised while an instruction runs, with the information its kind records (R171). -/
inductive Raised (R : Type := Binary64) where
  /-- `IllegalOpcode`. -/
  | illegalOpcode
  /-- `StackUnderflow`. -/
  | stackUnderflow
  /-- `AddressOutOfBounds`, with the computed index. -/
  | addressOutOfBounds (index : Int)
  /-- `AddressNotInteger`, with the popped value. -/
  | addressNotInteger (v : Value R)
  /-- `SqrtDomain`, with the source value. -/
  | sqrtDomain (v : Value R)
  /-- `StackOverflow`. -/
  | stackOverflow
  deriving DecidableEq, Repr

/-- The kind of a raised fault (R171). -/
def Raised.kind {R : Type} : Raised R → FaultKind
  | .illegalOpcode => .illegalOpcode
  | .stackUnderflow => .stackUnderflow
  | .addressOutOfBounds _ => .addressOutOfBounds
  | .addressNotInteger _ => .addressNotInteger
  | .sqrtDomain _ => .sqrtDomain
  | .stackOverflow => .stackOverflow

/-- `fault_addr` of a raised fault (R31, R171). -/
def Raised.addr {R : Type} : Raised R → Option Int
  | .illegalOpcode => none
  | .stackUnderflow => none
  | .addressOutOfBounds i => some i
  | .addressNotInteger _ => none
  | .sqrtDomain _ => none
  | .stackOverflow => none

/-- `fault_value` of a raised fault (R31, R171). -/
def Raised.value {R : Type} : Raised R → Option (Value R)
  | .illegalOpcode => none
  | .stackUnderflow => none
  | .addressOutOfBounds _ => none
  | .addressNotInteger v => some v
  | .sqrtDomain v => some v
  | .stackOverflow => none

/-- The numeric code of a fault kind (R171). -/
def FaultKind.code : FaultKind → Nat
  | .illegalOpcode => 1
  | .stackUnderflow => 2
  | .addressOutOfBounds => 3
  | .addressNotInteger => 4
  | .sqrtDomain => 5
  | .stackOverflow => 6

/-- The bytes of the loaded program; none before the first load (R213). -/
def State.progBytes {R : Type} (s : State R) : List Byte := s.prog.getD []

/-- `ProgByte(i)`, the byte at offset `i` of the program (R14). -/
def State.progByte {R : Type} (s : State R) (i : Nat) : Option Byte := s.progBytes[i]?

/-- A copy of the state with another status; nothing else changes. -/
def State.withStatus {R : Type} (s : State R) (st : Status R) : State R := { s with status := st }

/-- A completed instruction: its effects on the stack and the memory, and `pc <- pc + 6` (R113). -/
def State.complete {R : Type} (s : State R) (stack : List (Value R)) (mem : Memory R) : State R :=
  { s with stack := stack, mem := mem, pc := s.pc + 6 }

/-- The fault record of a fault raised in `s` (R31). -/
def faultRecord {R : Type} (s : State R) (r : Raised R) : FaultRecord R :=
  { kind := r.kind, faultPc := s.pc, faultOpcode := s.progByte s.pc, faultAddr := r.addr, faultValue := r.value }

/-- FAULT ENTRY (R176): the status becomes `FAULT(kind, info)` and nothing else changes; the pc stays at the
faulting record, the memory and the stack are as before the instruction (decision D9; log entry 12). -/
def takeFault {R : Type} (s : State R) (r : Raised R) : State R := s.withStatus (.fault (faultRecord s r))

/-- `pop()` on a stack whose top comes first (R14, R25). -/
def pop {R : Type} : List (Value R) → Except (Raised R) (Value R × List (Value R))
  | [] => .error .stackUnderflow
  | v :: rest => .ok (v, rest)

/-- The stack holds fewer values than its capacity (R14, R25). -/
def hasRoom {R : Type} (p : Params) (stack : List (Value R)) : Bool :=
  match p.stackCapacity with
  | none => true
  | some c => decide (stack.length < c)

/-- `push(v)`: on top, or `StackOverflow` where the stack is bounded and full (R14, R178). -/
def push {R : Type} (p : Params) (v : Value R) (stack : List (Value R)) : Except (Raised R) (List (Value R)) :=
  if hasRoom p stack then .ok (v :: stack) else .error .stackOverflow

/-- The end of an instruction whose body gave a stack and a memory, or raised a fault: the instruction completes
(R113) or the fault is entered and the pc increment not reached (R110, R176). -/
def settle {R : Type} (s : State R) : Except (Raised R) (List (Value R) × Memory R) → Answer R
  | .ok (stack, mem) => .next (s.complete stack mem)
  | .error r => .next (takeFault s r)

end Sys2Proof.Machine
end

