-- ==== Sys2Proof/Machine/Operands.lean ====
section
/-! DEFINITION. The addressing forms: the memory index made from a popped value and an unsigned offset (R14, R140). -/

namespace Sys2Proof.Machine

/-- `index(v, off)` (R14): a real value is no index (R175); the sum is exact; an index outside `[0, MEM_SIZE)`
faults (R58, R174). The type check comes before the bound check (R179; decisions D4, D10; log entries 10, 13). -/
def index {R : Type} (p : Params) (v : Value R) (off : Nat) : Except (Raised R) Nat :=
  match v with
  | .real r => .error (.addressNotInteger (.real r))
  | .int n =>
    if 0 ≤ n + (off : Int) ∧ n + (off : Int) < (p.memSize : Int) then .ok (n + (off : Int)).toNat
    else .error (.addressOutOfBounds (n + (off : Int)))

end Sys2Proof.Machine
end

