-- ==== Sys2Proof/Machine/Parameters.lean ====
section
/-! DEFINITION. `REAL` and `SQRT_FN` as arguments of the engine (R10, R34): any type of real values, with the two things
an instruction asks of it, and the one law that R162 puts on them. The defaults are in Real.lean. -/

namespace Sys2Proof.Machine

/-- What the engine takes of `REAL`, the type `R` (R10): the sign test of a real value and `SQRT_FN`. -/
structure RealArith (R : Type) where
  /-- `num(Real(r)) < 0`, what SQRT asks of a real source (R161). -/
  isNegative : R → Bool
  /-- `SQRT_FN`, of a real or an integer (R10). -/
  sqrtFn : Value R → R

/-- `num(v) < 0`, the test of SQRT (R161), where `neg` is that test of a real value. -/
def Value.isNegativeBy {R : Type} (neg : R → Bool) : Value R → Bool
  | .int n => decide (n < 0)
  | .real r => neg r

/-- The law of R162 (decision D3), where `num` gives the number a real value denotes (R13): the root of `k * k` is
exactly `k`, of an integer and of a real, for every `k * k` that LOAD_CONST can make; and the sign test is that of the
number denoted. -/
structure RealArith.Lawful {R : Type} (A : RealArith R) (num : R → Option ℝ) : Prop where
  /-- The sign test agrees with the number denoted. -/
  isNegative_iff : ∀ r x, num r = some x → (A.isNegative r = true ↔ x < 0)
  /-- `SQRT_FN(Int(k * k)) = k`. -/
  sqrt_int : ∀ k : Nat, k * k ≤ 65535 → num (A.sqrtFn (.int ((k * k : Nat) : Int))) = some (k : ℝ)
  /-- `SQRT_FN(Real(k * k)) = k`. -/
  sqrt_real : ∀ (k : Nat) (r : R), k * k ≤ 65535 → num r = some ((k * k : Nat) : ℝ) →
    num (A.sqrtFn (.real r)) = some (k : ℝ)

end Sys2Proof.Machine
end

