-- ==== Sys2Proof/Machine/Real.lean ====
section
/-! DEFINITION. The defaults of `REAL` and `SQRT_FN` (R10, R162): what a binary64 datum denotes, and the correctly
rounded square root. Everything here is integer arithmetic on the fields of the datum. -/

namespace Sys2Proof.Machine

/-- The sign bit. -/
def realSign (r : Binary64) : Bool := r.msb

/-- The biased exponent field, bits 62 to 52. -/
def realExponent (r : Binary64) : Nat := r.toNat / 2 ^ 52 % 2 ^ 11

/-- The fraction field, bits 51 to 0. -/
def realFraction (r : Binary64) : Nat := r.toNat % 2 ^ 52

/-- A NaN: exponent field all ones and a fraction that is not zero. -/
def realIsNaN (r : Binary64) : Bool := realExponent r == 2047 && realFraction r != 0

/-- An infinity: exponent field all ones and fraction zero. -/
def realIsInf (r : Binary64) : Bool := realExponent r == 2047 && realFraction r == 0

/-- Positive or negative zero. -/
def realIsZero (r : Binary64) : Bool := realExponent r == 0 && realFraction r == 0

/-- The integer significand of a finite datum: its magnitude is `realSignificand r * 2 ^ realScale r`. -/
def realSignificand (r : Binary64) : Nat :=
  if realExponent r = 0 then realFraction r else 2 ^ 52 + realFraction r

/-- The power of two that scales the significand of a finite datum. -/
def realScale (r : Binary64) : Int :=
  if realExponent r = 0 then -1074 else (realExponent r : Int) - 1075

/-- The number a finite datum denotes; none for an infinity or a NaN. -/
def realNum (r : Binary64) : Option ℚ :=
  if realExponent r = 2047 then none
  else some ((if realSign r then -1 else 1) * (realSignificand r : ℚ) * (2 : ℚ) ^ realScale r)

/-- `num(v)`, the number a value denotes (R13). -/
def Value.num : Value → Option ℚ
  | .int n => some n
  | .real r => realNum r

/-- `num(r) < 0`: the negative infinity counts as negative, a zero of either sign and a NaN do not (log entry 4). -/
def realIsNegative (r : Binary64) : Bool := realSign r && !realIsNaN r && !realIsZero r

/-- `num(v) < 0`, the test of SQRT (R161), at the default `REAL`. -/
def Value.isNegative (v : Value) : Bool := v.isNegativeBy realIsNegative

/-- The part of the integer square root of `n` below bit `k`, given the bits `r` already found. -/
def isqrtFrom (n : Nat) : Nat → Nat → Nat
  | 0, r => r
  | k + 1, r => if (r + 2 ^ k) * (r + 2 ^ k) ≤ n then isqrtFrom n k (r + 2 ^ k) else isqrtFrom n k r

/-- The integer square root: the largest `q` with `q * q ≤ n`. -/
def isqrt (n : Nat) : Nat := isqrtFrom n (n.log2 / 2 + 1) 0

/-- A positive number rounded to binary64, to nearest, ties to even. The number is `(q + d) * 2 ^ e` with
`0 ≤ d < 1`, and `sticky` says that `d` is not 0; `q` has at least 54 bits and the result is not subnormal. A carry
out of the 53-bit significand runs into the exponent field; a number past the largest finite datum gives infinity. -/
def roundToReal (q : Nat) (sticky : Bool) (e : Int) : Binary64 :=
  let cut := q.log2 - 52
  let kept := q / 2 ^ cut
  let rest := q % 2 ^ cut
  let half := 2 ^ (cut - 1)
  let up := decide (half < rest) || (rest == half && (sticky || kept % 2 == 1))
  let significand := if up then kept + 1 else kept
  let biased := (e + cut + 1075).toNat
  BitVec.ofNat 64 (min ((biased - 1) * 2 ^ 52 + significand) (2047 * 2 ^ 52))

/-- The correctly rounded square root of the positive number `m * 2 ^ e`: `m` is scaled by an even or odd shift so
that the root has at least 54 bits and the remaining power of two is even. -/
def roundedSqrt (m : Nat) (e : Int) : Binary64 :=
  let shift := 108 + (e % 2).toNat
  let scaled := m * 2 ^ shift
  let q := isqrt scaled
  roundToReal q (q * q != scaled) ((e - shift) / 2)

/-- The quiet NaN whose sign and payload are the free value of the operand (log entry 3). -/
def freeNaN (r : Binary64) : Binary64 :=
  let bits := Config.sqrtNaNBits r
  BitVec.ofNat 64 (bits.toNat / 2 ^ 51 * 2 ^ 63 + 4095 * 2 ^ 51 + bits.toNat % 2 ^ 51)

/-- The correctly rounded binary64 square root of a natural number. -/
def sqrtOfNat (n : Nat) : Binary64 := if n = 0 then 0#64 else roundedSqrt n 0

/-- The binary64 square root of a datum. The root of a zero is that zero, of the positive infinity itself (PRESUMED,
IEEE 754; log entry 4), of a NaN or a negative datum a NaN with free bits; SQRT faults before it takes the root of
a negative value. -/
def sqrtOfReal (r : Binary64) : Binary64 :=
  if realIsNaN r then freeNaN r
  else if realIsZero r then r
  else if realSign r then freeNaN r
  else if realIsInf r then r
  else roundedSqrt (realSignificand r) (realScale r)

/-- `SQRT_FN` (R10, R162) at its default: the correctly rounded binary64 square root of an integer or a real value.
PRESUMED for the format (G1); log entry 2. -/
def sqrtFn : Value → Binary64
  | .int n => sqrtOfNat n.toNat
  | .real r => sqrtOfReal r

/-- The value this hardware takes for `REAL` and `SQRT_FN` (R10): binary64 and its correctly rounded square root. -/
def RealArith.default : RealArith Binary64 :=
  { isNegative := realIsNegative, sqrtFn := Sys2Proof.Machine.sqrtFn }

/-- The binary64 datum that denotes the natural number `n`, exact for `n < 2 ^ 53`. -/
def realOfNat (n : Nat) : Binary64 :=
  if n = 0 then 0#64
  else BitVec.ofNat 64 ((n.log2 + 1022) * 2 ^ 52 + n * 2 ^ 52 / 2 ^ n.log2)

end Sys2Proof.Machine
end

