-- ==== Sys2Proof/Machine/Arithmetic.lean ====
section
/-! DEFINITION. The arithmetic family: SQRT (43_sqrt.md). -/

namespace Sys2Proof.Machine

/-- The body of SQRT for any `REAL` and `SQRT_FN` (R10 makes both arguments): pop the source index, read
the cell, pop the destination base, check the domain, write the root, always a `Real`, to base plus offset (R161).
The source is read before the destination is written (R63). The place of the domain check is decision D10 (log
entry 13). -/
def sqrtBody {R : Type} (A : RealArith R) (b : Nat) (s : State R) : Except (Raised R) (List (Value R) × Memory R) := do
  let (a, below) ← pop s.stack
  let i ← index s.params a 0
  let v := s.mem.read i
  let (base, rest) ← pop below
  if v.isNegativeBy A.isNegative then .error (.sqrtDomain v)
  let j ← index s.params base b
  return (rest, s.mem.write j (.real (A.sqrtFn v)))

/-- SQRT `b` (R161), at the defaults of `REAL` and `SQRT_FN` (R10). -/
def execSqrt (b : Nat) (s : State) : Answer := settle s (sqrtBody RealArith.default b s)

end Sys2Proof.Machine
end

