-- ==== Sys2Proof/Machine/Constant.lean ====
section
/-! DEFINITION. The constant family: LOAD_CONST (41_load_const.md). -/

namespace Sys2Proof.Machine

/-- The body of LOAD_CONST: `push(Int(B))` (R131, R132). -/
def loadConstBody {R : Type} (b : Nat) (s : State R) : Except (Raised R) (List (Value R) × Memory R) := do
  let stack ← push s.params (.int (b : Int)) s.stack
  return (stack, s.mem)

/-- LOAD_CONST `b` (R131). -/
def execLoadConst (b : Nat) (s : State) : Answer := settle s (loadConstBody b s)

end Sys2Proof.Machine
end

