-- ==== Sys2Proof/Machine/Transfer.lean ====
section
/-! DEFINITION. The memory-transfer family: READ_MEM and WRITE_MEM (42_memory_transfer.md). -/

namespace Sys2Proof.Machine

/-- The body of READ_MEM: pop the base, form the index with the offset, read the cell, push its value with its tag
(R141, R142). -/
def readMemBody {R : Type} (b : Nat) (s : State R) : Except (Raised R) (List (Value R) × Memory R) := do
  let (a, rest) ← pop s.stack
  let i ← index s.params a b
  let stack ← push s.params (s.mem.read i) rest
  return (stack, s.mem)

/-- READ_MEM `b` (R141). -/
def execReadMem (b : Nat) (s : State) : Answer := settle s (readMemBody b s)

/-- The body of WRITE_MEM: pop the value, pop the index, store the value with its tag (R145, R146). -/
def writeMemBody {R : Type} (s : State R) : Except (Raised R) (List (Value R) × Memory R) := do
  let (v, below) ← pop s.stack
  let (addr, rest) ← pop below
  let i ← index s.params addr 0
  return (rest, s.mem.write i v)

/-- WRITE_MEM (R145). -/
def execWriteMem (s : State) : Answer := settle s (writeMemBody s)

end Sys2Proof.Machine
end

