-- ==== Sys2Proof/Machine/Dispatch.lean ====
section
/-! DEFINITION. The dispatch of R110 and R114: one arm per instruction. -/

namespace Sys2Proof.Machine

/-- One instruction, executed to its end: its effects and the pc increment, or the fault it raises (R110). -/
def exec (i : Instr) (s : State) : Host.Outcome State Fault Refusal :=
  match i with
  | .loadConst b => Sys2Proof.Machine.execLoadConst b s
  | .readMem b => Sys2Proof.Machine.execReadMem b s
  | .writeMem => Sys2Proof.Machine.execWriteMem s
  | .sqrt b => Sys2Proof.Machine.execSqrt b s

end Sys2Proof.Machine
end

