-- ==== Sys2Proof/Machine/Fetch.lean ====
section
/-! DEFINITION. The step around an instruction (R110): the termination test (R111), the fetch (R112) and what follows
decoding (R115). What a decoded instruction does is the argument `run`: `step` gives `exec`, and the engine over other
values of R10's `REAL` and `SQRT_FN` gives `execWith`. -/

namespace Sys2Proof.Machine

/-- The length of the loaded program in bytes. -/
def State.progLength {R : Type} (s : State R) : Nat := s.progBytes.length

/-- `prog[pc .. pc+5]` (R110, R112): the bytes from `pc` on, at most 6. -/
def fetchRecord (prog : List Byte) (pc : Nat) : List Byte := (prog.drop pc).take 6

/-- What a decoded record does (R110): an instruction runs, an illegal opcode raises `IllegalOpcode` (R115). -/
def runDecoded {R : Type} (run : Instr → State R → Answer R) (s : State R) : Decoded → Answer R
  | .instr i => run i s
  | .illegal _ => .next (takeFault s .illegalOpcode)
  | .notARecord => .fault .partialRecord

/-- The step while `status = RUNNING` (R110): the termination test (R111), then fetch, decode and dispatch. Before
the first load it is not defined (R213). -/
def stepRunning {R : Type} (run : Instr → State R → Answer R) (s : State R) : Answer R :=
  match s.prog with
  | none => .refused .noProgram
  | some prog =>
    if prog.length ≤ s.pc then .next (s.withStatus .done)
    else runDecoded run s (decode (fetchRecord prog s.pc))

/-- One step (R110): defined while `status = RUNNING`; `DONE` and `FAULT(…)` are terminal (R180). -/
def stepBy {R : Type} (run : Instr → State R → Answer R) (s : State R) : Answer R :=
  match s.status with
  | .running => stepRunning run s
  | .done => .fault .terminated
  | .fault _ => .fault .terminated

/-- The bytes `old` with the record `new` at offset `pc`, zero bytes filling a gap before it. -/
def placeRecord (old : List Byte) (pc : Nat) (new : List Byte) : List Byte :=
  (old ++ List.replicate (pc - old.length) 0#8).take pc ++ new ++ old.drop (pc + 6)

end Sys2Proof.Machine
end

