-- ==== Sys2Proof/Machine/Step.lean ====
section
/-! DEFINITION. The step (R110) and the placing of one instruction where it fetches. -/

namespace Sys2Proof.Machine

/-- One step (R110), each instruction's meaning being that of `exec`. -/
def step (s : State) : Host.Outcome State Fault Refusal := stepBy exec s

/-- `s` with the record whose bits are `w` (numbered as the opcode table numbers them) in the loaded program at `pc`,
and running, so that the next step executes it. It stands for the host's `load` and `reset` (R214; log entry 6). -/
def State.withFetchWord (s : State) (nbits w : Nat) : State :=
  { s with prog := some (placeRecord s.progBytes s.pc (tableRecord nbits w)), status := .running }

end Sys2Proof.Machine
end

