-- ==== Sys2Proof/Machine/Assembler.lean ====
section
/-! DEFINITION. The assembler (30_encoding.md, R90 to R97): toolchain, outside the engine. From the characters of a
source text to the bytes of a program, the trace and the diagnostics. Details: decision D16, log entry 16. -/

namespace Sys2Proof.Machine

/-- Space, tab, vertical tab and form feed (R91). -/
def isBlankChar (c : Char) : Bool := c.toNat == 32 || c.toNat == 9 || c.toNat == 11 || c.toNat == 12

/-- A line without the CR that may stand before its LF (R91). -/
def dropCR (line : List Char) : List Char :=
  if line.getLast? = some (Char.ofNat 13) then line.dropLast else line

/-- The lines of a text (R91): each ends at an LF, less one CR before it; a last segment that no LF ends is a line
unless it is empty. `current` is the line read so far. -/
def linesFrom (current : List Char) : List Char → List (List Char)
  | [] => if current = [] then [] else [current]
  | c :: rest =>
    if c.toNat = 10 then dropCR current :: linesFrom [] rest else linesFrom (current ++ [c]) rest

/-- The tokens of a line: its maximal runs of non-blank characters (R90, R91). -/
def tokensFrom (current : List Char) : List Char → List (List Char)
  | [] => if current = [] then [] else [current]
  | c :: rest =>
    if isBlankChar c then
      if current = [] then tokensFrom [] rest else current :: tokensFrom [] rest
    else tokensFrom (current ++ [c]) rest

/-- The value of a run of decimal digits after the digits read so far; none where another character stands. -/
def digitsFrom (value : Nat) : List Char → Option Nat
  | [] => some value
  | c :: rest =>
    if 48 ≤ c.toNat ∧ c.toNat ≤ 57 then digitsFrom (value * 10 + (c.toNat - 48)) rest else none

/-- At least one digit. -/
def naturalToken : List Char → Option Nat
  | [] => none
  | c :: rest => digitsFrom 0 (c :: rest)

/-- A token that matches `[+-]?[0-9]+`, as the number it denotes (R91). -/
def integerToken : List Char → Option Int
  | [] => none
  | c :: rest =>
    if c.toNat = 45 then (naturalToken rest).map fun n => -(n : Int)
    else if c.toNat = 43 then (naturalToken rest).map fun n => (n : Int)
    else (naturalToken (c :: rest)).map fun n => (n : Int)

/-- The numbers of a line of one or two tokens, each an integer (R93 check 1). -/
inductive SourceLine where
  /-- `A`. -/
  | one (a : Int)
  /-- `A B`. -/
  | two (a b : Int)
  deriving DecidableEq, Repr

/-- R93 check 1; none is the parse error. -/
def parseLine (line : List Char) : Option SourceLine :=
  match tokensFrom [] line with
  | [t] => (integerToken t).map .one
  | [t, u] => (integerToken t).bind fun a => (integerToken u).map fun b => .two a b
  | _ => none

/-- The fatal errors (R97). -/
inductive AsmError where
  /-- `ParseError`. -/
  | parseError
  /-- `RangeError`. -/
  | rangeError
  deriving DecidableEq, Repr

/-- The diagnostics of skipped lines (R97). -/
inductive Diagnostic where
  /-- `UnrecognizedOpcode`. -/
  | unrecognizedOpcode
  /-- `WrongArity`. -/
  | wrongArity
  deriving DecidableEq, Repr

/-- What one line comes to (R93). -/
inductive LineResult where
  /-- The line emits an instruction's record. -/
  | emit (i : Instr)
  /-- The line is skipped with a diagnostic. -/
  | skip (d : Diagnostic)
  /-- The line is fatal to the assembly. -/
  | fatal (e : AsmError)
  deriving DecidableEq, Repr

/-- The arity table (R92): how many operands an opcode number takes; none for an unrecognized one. -/
def arity (a : Int) : Option Nat :=
  if a = 90 then some 1 else if a = 1 then some 1 else if a = 137 then some 1 else if a = 62 then some 0 else none

/-- The instruction of opcode number `a` and operand `b`, in range or not. -/
def instrOfNumbers (a : Int) (b : Nat) : Option Instr :=
  if a = 90 then some (.loadConst b)
  else if a = 1 then some (.readMem b)
  else if a = 137 then some (.sqrt b)
  else if a = 62 then some .writeMem
  else none

/-- R93 checks 4 and 5: the operand fits its field, and the line emits its record. -/
def emitChecked (a b : Int) : LineResult :=
  match instrOfNumbers a b.toNat with
  | none => .skip .unrecognizedOpcode
  | some i => if 0 ≤ b ∧ i.wellFormed = true then .emit i else .fatal .rangeError

/-- R93 checks 2 to 5 on a line's numbers. -/
def checkLine : SourceLine → LineResult
  | .one a =>
    match arity a with
    | none => .skip .unrecognizedOpcode
    | some n => if n = 0 then emitChecked a 0 else .skip .wrongArity
  | .two a b =>
    match arity a with
    | none => .skip .unrecognizedOpcode
    | some n => if n = 1 then emitChecked a b else .skip .wrongArity

/-- R93, all checks in their order. -/
def assembleLine (line : List Char) : LineResult :=
  match parseLine line with
  | none => .fatal .parseError
  | some l => checkLine l

/-- The instruction a line emits, where it emits one. -/
def emittedBy (line : List Char) : Option Instr :=
  match assembleLine line with
  | .emit i => some i
  | .skip _ => none
  | .fatal _ => none

/-- One entry of the trace (R96): `B` is present only for one-operand opcodes. -/
structure TraceEntry where
  /-- The opcode's name. -/
  key : String
  /-- The opcode number. -/
  a : Nat
  /-- The operand. -/
  b : Option Nat
  deriving DecidableEq, Repr

/-- The operand of an instruction that has one (R92). -/
def operandOf : Instr → Option Nat
  | .loadConst b => some b
  | .readMem b => some b
  | .writeMem => none
  | .sqrt b => some b

/-- The trace entry of an emitted record (R96). -/
def traceEntry (i : Instr) : TraceEntry := { key := i.mnemonic, a := i.opcode.toNat, b := operandOf i }

/-- The output of an assembly that had no fatal error. -/
structure Assembled where
  /-- The instructions emitted, in line order. -/
  instrs : List Instr
  /-- The diagnostics of the skipped lines, in line order. -/
  diagnostics : List Diagnostic
  deriving DecidableEq, Repr

/-- The program: the records of the emitted instructions, concatenated (R82, R94). -/
def Assembled.bytes (o : Assembled) : List Byte := o.instrs.flatMap encode

/-- The trace: one entry per emitted record, in order (R96). -/
def Assembled.trace (o : Assembled) : List TraceEntry := o.instrs.map traceEntry

/-- The lines of a source, in order; the first fatal line ends the assembly with no byte stream (R93, R97). Whether the
diagnostics of lines skipped before it are still reported the spec leaves open; DESIGN CHOICE, log entry 16: the error
carries its kind only, and those diagnostics are dropped. -/
def assembleLines : List (List Char) → Except AsmError Assembled
  | [] => .ok { instrs := [], diagnostics := [] }
  | line :: rest =>
    match assembleLine line with
    | .fatal e => .error e
    | .skip d =>
      match assembleLines rest with
      | .error e => .error e
      | .ok o => .ok { o with diagnostics := d :: o.diagnostics }
    | .emit i =>
      match assembleLines rest with
      | .error e => .error e
      | .ok o => .ok { o with instrs := i :: o.instrs }

/-- The assembler on a source text (R90 to R97). -/
def assemble (text : List Char) : Except AsmError Assembled := assembleLines (linesFrom [] text)

end Sys2Proof.Machine
end

