-- ==== Sys2Proof/Machine/Engine.lean ====
section
/-! DEFINITION. The engine over any values of its parameters (R10): a model takes each as an argument. `MEM_SIZE`,
`STACK_CAPACITY` and `PROG_MAX_BYTES` are the field `params` of the state, `REAL` is the type `R`, and `SQRT_FN` comes
with `A`. `exec`, `step` and `State.reset` are this engine at the defaults, the values this hardware takes. -/

namespace Sys2Proof.Machine

/-- The body of an instruction, for any `REAL` and `SQRT_FN`; SQRT alone asks anything of them. -/
def bodyWith {R : Type} (A : RealArith R) : Instr → State R → Except (Raised R) (List (Value R) × Memory R)
  | .loadConst b => loadConstBody b
  | .readMem b => readMemBody b
  | .writeMem => writeMemBody
  | .sqrt b => sqrtBody A b

/-- One instruction, executed to its end (R110), for any `REAL` and `SQRT_FN`. -/
def execWith {R : Type} (A : RealArith R) (i : Instr) (s : State R) : Answer R := settle s (bodyWith A i s)

/-- One step (R110), for any `REAL` and `SQRT_FN`. -/
def stepWith {R : Type} (A : RealArith R) (s : State R) : Answer R := stepBy (execWith A) s

/-- The machine right after reset (R202, R213), for any parameters: no program is loaded (log entry 6). -/
def State.initial {R : Type} (p : Params) : State R :=
  { params := p, prog := none, pc := 0, stack := [], mem := [], status := .running }

end Sys2Proof.Machine
end

