-- ==== Sys2Proof/Machine/HostOps.lean ====
section
/-! DEFINITION. The five operations of the host (R200): load, reset, run, read_result, read_state. -/

namespace Sys2Proof.Machine

/-- What `load` returns (R201). -/
inductive LoadReply where
  /-- The program is installed. -/
  | accepted
  /-- The length is no multiple of 6 or over `PROG_MAX_BYTES`; nothing changed. -/
  | lengthError
  /-- A program is loaded and the engine is running; nothing changed. -/
  | busy
  deriving DecidableEq, Repr

/-- What a host operation that reads or resets returns. -/
inductive Reply (α : Type) where
  /-- The operation's result. -/
  | ok (a : α)
  /-- `RangeError` (R206). -/
  | rangeError
  /-- The operation is not defined here (R203, R205, R212, R213); nothing happens (log entry 14). -/
  | notDefined
  deriving DecidableEq, Repr

/-- `load` is refused with `Busy`: a program has been loaded and `status = RUNNING` (R201). -/
def State.loadBusy {R : Type} (s : State R) : Bool := s.prog.isSome && s.status.isRunning

/-- `load(P)` (R201): installs `P` as the program, or changes nothing. -/
def hostLoad {R : Type} (program : List Byte) (s : State R) : LoadReply × State R :=
  if s.loadBusy then (.busy, s)
  else if programWellFormed s.params program then (.accepted, { s with prog := some program })
  else (.lengthError, s)

/-- The state `reset()` leaves (R202, R213): the program is kept, and so are the parameters. -/
def State.resetRun {R : Type} (s : State R) : State R :=
  { s with pc := 0, stack := [], mem := [], status := .running }

/-- A run is under way: the engine is running and has completed an instruction (log entry 14). -/
def State.midRun {R : Type} (s : State R) : Bool := s.status.isRunning && decide (s.pc ≠ 0)

/-- `reset()` (R202): not defined before the first load (R213) nor during a run (R203). -/
def hostReset {R : Type} (s : State R) : Reply (State R) :=
  if s.prog.isSome && !s.midRun then .ok s.resetRun else .notDefined

/-- At most `n` steps of `one`, while `status = RUNNING` (R203). -/
def runSteps {R : Type} (one : State R → Answer R) : Nat → State R → Answer R
  | 0, s => .next s
  | n + 1, s =>
    if s.status.isRunning then
      match one s with
      | .next t => runSteps one n t
      | .fault r => .fault r
      | .refused r => .refused r
    else .next s

/-- `run()` (R203) with the step `one`: steps while `status = RUNNING`. A run takes at most `len(prog)/6 + 1` steps
(R117). Before the first load it is not defined (R213). -/
def runBy {R : Type} (one : State R → Answer R) (s : State R) : Answer R :=
  match s.prog with
  | none => .refused .noProgram
  | some prog => runSteps one (prog.length / 6 + 1) s

/-- `run()` (R203). R202 requires a reset before every run and no rule says what `run` does without one. DESIGN CHOICE,
log entry 14: it starts from the state as it stands, so that right after the first `load` it executes the program from
the power-on state as after a `reset`, and in a terminal state it returns at once and changes nothing. -/
def hostRun (s : State) : Answer := runBy step s

/-- `run()` for any `REAL` and `SQRT_FN` (R10). -/
def hostRunWith {R : Type} (A : RealArith R) (s : State R) : Answer R := runBy (stepWith A) s

/-- The pairs `(i, mem[i])` for the `n` indices from `first` on, in increasing order (R205). -/
def cellsFrom {R : Type} (m : Memory R) (first : Nat) : Nat → List (Nat × Value R)
  | 0 => []
  | n + 1 => (first, m.read first) :: cellsFrom m (first + 1) n

/-- `read_result(start, end)` (R205 to R208): the cells `start` to `end` inclusive, in a terminal state. -/
def hostReadResult {R : Type} (first last : Int) (s : State R) : Reply (List (Nat × Value R)) :=
  if s.status.isRunning then .notDefined
  else if 0 ≤ first ∧ first ≤ last ∧ last < (s.params.memSize : Int) then
    .ok (cellsFrom s.mem first.toNat (last - first + 1).toNat)
  else .rangeError

/-- `read_state()` (R212): `(status, pc, stack)` in a terminal state, the stack from bottom to top. -/
def hostReadState {R : Type} (s : State R) : Reply (Status R × Nat × List (Value R)) :=
  if s.status.isRunning then .notDefined else .ok (s.status, s.pc, s.stack.reverse)

end Sys2Proof.Machine
end

