-- ==== Sys2Proof/Safety.lean ====
section
/-! DEFINITION. What claims are stated in: the invariant of the engine's states, the bound on values (R11), the
state a fault leaves, and a number of steps. -/

namespace Sys2Proof.Machine

/-- The stack holds at most `STACK_CAPACITY` values (R10). -/
def State.stackFits {R : Type} (s : State R) : Bool :=
  match s.params.stackCapacity with
  | none => true
  | some c => decide (s.stack.length ≤ c)

/-- `fault_addr` is present exactly for `AddressOutOfBounds`, `fault_value` exactly for `AddressNotInteger` and
`SqrtDomain` (R31, R171). -/
def FaultRecord.wellFormed {R : Type} (r : FaultRecord R) : Bool :=
  (r.faultAddr.isSome == decide (r.kind = .addressOutOfBounds)) &&
  (r.faultValue.isSome == decide (r.kind = .addressNotInteger ∨ r.kind = .sqrtDomain))

/-- The status agrees with the rest of the state: `DONE` only at the program's end (R30, R117); a fault record names
the pc, the byte there, and the fields of its kind (R31). -/
def State.statusAgrees {R : Type} (s : State R) : Bool :=
  match s.status with
  | .running => true
  | .done => decide (s.pc = s.progLength)
  | .fault r =>
    decide (s.pc < s.progLength) && decide (r.faultPc = s.pc) && decide (r.faultOpcode = s.progByte s.pc) &&
      r.wellFormed

/-- The invariant of the engine: what every state of every run satisfies, and every step keeps. -/
structure State.Invariant {R : Type} (s : State R) : Prop where
  /-- The parameters lie in the ranges of R10. -/
  params_legal : s.params.wellFormed = true
  /-- The memory is in canonical form. -/
  mem_canonical : s.mem.wf
  /-- The memory lists no cell outside `[0, MEM_SIZE)` (R26). -/
  mem_inside : s.mem.within s.params.memSize
  /-- The program is a whole number of records (R28). -/
  prog_whole : s.progLength % 6 = 0
  /-- The pc is a multiple of 6 (R22, R53). -/
  pc_aligned : s.pc % 6 = 0
  /-- The pc is at most the program's length (R23). -/
  pc_inside : s.pc ≤ s.progLength
  /-- The stack is within its capacity. -/
  stack_fits : s.stackFits = true
  /-- The status agrees with the rest of the state. -/
  status_agrees : s.statusAgrees = true

/-- The bound of R11 at the default `REAL`: an integer lies in `[0, 65535]`, a real in `[0, 256)`. The data of `[0, 256)` with the sign bit
clear are the bit patterns below that of 256, `0x4070000000000000`. -/
def Value.bounded : Value → Bool
  | .int n => decide (0 ≤ n ∧ n ≤ 65535)
  | .real r => decide (r.toNat < 0x4070000000000000)

/-- Every value the engine holds is bounded (R11). -/
def State.ValuesBounded (s : State) : Prop :=
  (∀ v ∈ s.stack, v.bounded = true) ∧ ∀ c ∈ s.mem, c.2.bounded = true

/-- The state a fault of the given kind leaves (R176), with the fields of its record (R31): only the status is new. -/
def State.faulted {R : Type} (s : State R) (kind : FaultKind) (opcode : Option Byte) (addr : Option Int)
    (value : Option (Value R)) : State R :=
  { s with status := .fault { kind := kind, faultPc := s.pc, faultOpcode := opcode, faultAddr := addr,
                              faultValue := value } }

/-- Exactly `n` steps, each of which answers a next state; or the first stop. -/
def stepTimes : Nat → State → Answer
  | 0, s => .next s
  | n + 1, s =>
    match step s with
    | .next t => stepTimes n t
    | .fault r => .fault r
    | .refused r => .refused r

end Sys2Proof.Machine
end

