-- ==== Sys2Proof/Certificates/Slice0/Obligations.lean ====
section
/-! DEFINITION. The statements for the provers, from the numbered rules of the spec. -/

open Sys2Proof Sys2Proof.Machine

/-! ### Encoding -/

/-- R79: the decoder is this case distinction on the opcode byte, for every six bytes; R80: every other opcode byte
is illegal. -/
def Obligations.DecodeFollowsOpcodeMap : Prop :=
  ∀ b0 b1 b2 b3 b4 b5 : Byte,
    (b0.toNat = 90 → decode [b0, b1, b2, b3, b4, b5] = .instr (.loadConst (b1.toNat * 256 + b2.toNat))) ∧
    (b0.toNat = 1 → decode [b0, b1, b2, b3, b4, b5] = .instr (.readMem b1.toNat)) ∧
    (b0.toNat = 62 → decode [b0, b1, b2, b3, b4, b5] = .instr .writeMem) ∧
    (b0.toNat = 137 → decode [b0, b1, b2, b3, b4, b5] = .instr (.sqrt b1.toNat)) ∧
    (b0.toNat ≠ 90 → b0.toNat ≠ 1 → b0.toNat ≠ 62 → b0.toNat ≠ 137 →
      decode [b0, b1, b2, b3, b4, b5] = .illegal b0)

/-- Sanity: records written out from R71 and V-DEC-3, V-DEC-5, V-DEC-7, V-DEC-8, V-DEC-9 of 95_test_vectors.md. -/
def Obligations.SampleRecordsDecode : Prop :=
  decode [0x5A#8, 0x01#8, 0x00#8, 0x00#8, 0x00#8, 0x00#8] = .instr (.loadConst 256) ∧
  decode [0x01#8, 0xFF#8, 0x00#8, 0x00#8, 0x00#8, 0x00#8] = .instr (.readMem 255) ∧
  decode [0x3E#8, 0xFF#8, 0xFF#8, 0xFF#8, 0xFF#8, 0xFF#8] = .instr .writeMem ∧
  decode [0x89#8, 0x02#8, 0x00#8, 0x00#8, 0x00#8, 0x00#8] = .instr (.sqrt 2) ∧
  decode [0x00#8, 0x00#8, 0x00#8, 0x00#8, 0x00#8, 0x00#8] = .illegal 0x00#8

/-- R71: in the record word `W` the opcode is `W[47:40]`, the F16 operand `W[39:24]`, the F8 operand `W[39:32]`, and
every other bit of bytes 1 to 5 is padding. That the table's words are these words is the model's reading (DEDUCED,
log entry 7). -/
def Obligations.TableWordFields : Prop :=
  ∀ w : Nat, decodeTableWord 48 w =
    if w / 2 ^ 40 % 256 = 90 then some (.loadConst (w / 2 ^ 24 % 65536))
    else if w / 2 ^ 40 % 256 = 1 then some (.readMem (w / 2 ^ 32 % 256))
    else if w / 2 ^ 40 % 256 = 62 then some .writeMem
    else if w / 2 ^ 40 % 256 = 137 then some (.sqrt (w / 2 ^ 32 % 256))
    else none

/-- Decode and encode agree: every well-formed instruction, with every operand its field admits (section 2 and 5 of
30_encoding.md). -/
def Obligations.DecodeOfEncode : Prop :=
  ∀ i : Instr, i.wellFormed = true → decode (encode i) = .instr i

/-- The other direction: of the records of an instruction, `encode` gives the one whose padding is zero; two records
of one instruction differ in padding bytes only (sections 1 and 2 of 30_encoding.md). -/
def Obligations.EncodeOfDecode : Prop :=
  ∀ (b0 b1 b2 b3 b4 b5 : Byte) (i : Instr), decode [b0, b1, b2, b3, b4, b5] = .instr i →
    encode i = match i with
      | .loadConst _ => [b0, b1, b2, 0#8, 0#8, 0#8]
      | .readMem _ => [b0, b1, 0#8, 0#8, 0#8, 0#8]
      | .writeMem => [b0, 0#8, 0#8, 0#8, 0#8, 0#8]
      | .sqrt _ => [b0, b1, 0#8, 0#8, 0#8, 0#8]

/-- R77: padding bytes are never read. A record executes exactly as the record with zero padding in its place: the
step from the program so changed gives the same next state, but for the program itself. -/
def Obligations.PaddingIsNeverRead : Prop :=
  ∀ (s t : State) (p : List Byte) (i : Instr), s.status = .running → s.prog = some p →
    decode ((p.drop s.pc).take 6) = .instr i → step s = .next t →
    step { s with prog := some (p.take s.pc ++ encode i ++ p.drop (s.pc + 6)) } =
      .next { t with prog := some (p.take s.pc ++ encode i ++ p.drop (s.pc + 6)) }

/-! ### The step -/

/-- A step runs the decoded instruction: where the bytes at the pc decode to an instruction, the step is `exec` of it,
which has the pc increment of R113 in it (log entry 8). -/
def Obligations.StepRunsDecodedInstruction : Prop :=
  ∀ (s : State) (p : List Byte) (i : Instr), s.status = .running → s.prog = some p →
    decode ((p.drop s.pc).take 6) = .instr i → step s = exec i s

/-- The placing of a word where the step fetches (the model's own interface, log entry 6): whatever instruction the
decoder reads from the word is what the next step executes. -/
def Obligations.FetchWordIsExecutedNext : Prop :=
  ∀ (s : State) (w : Nat) (i : Instr), decodeTableWord 48 w = some i →
    step (s.withFetchWord 48 w) = exec i (s.withFetchWord 48 w)

/-- R115: an illegal opcode halts at once, with the pc, the stack and the memory as they are; the run that meets it
ends there, and the records after it are never fetched. -/
def Obligations.IllegalOpcodeHalts : Prop :=
  ∀ (s : State) (p : List Byte) (b0 b1 b2 b3 b4 b5 : Byte), s.status = .running → s.prog = some p →
    (p.drop s.pc).take 6 = [b0, b1, b2, b3, b4, b5] →
    b0.toNat ≠ 90 → b0.toNat ≠ 1 → b0.toNat ≠ 62 → b0.toNat ≠ 137 →
    step s = .next (s.faulted .illegalOpcode (some b0) none none) ∧
    hostRun s = .next (s.faulted .illegalOpcode (some b0) none none)

/-- R111: at or past the program's end the step sets `DONE` and changes nothing else; no other step sets it. -/
def Obligations.TerminationTest : Prop :=
  ∀ (s : State) (p : List Byte), s.status = .running → s.prog = some p →
    (p.length ≤ s.pc → step s = .next { s with status := .done }) ∧
    (s.pc < p.length → ∀ t, step s = .next t → t.status ≠ .done)

/-- R113: a step adds exactly 6 to the pc where the engine goes on running, and leaves it where the run ends. -/
def Obligations.PcIncrement : Prop :=
  ∀ s t : State, step s = .next t →
    (t.status = .running → t.pc = s.pc + 6) ∧ (t.status ≠ .running → t.pc = s.pc)

/-- R22: from a pc of 0, after any number of steps the pc is six times the number of instructions completed: all
the steps, or all but the last where the last one ended the run. -/
def Obligations.PcCountsInstructions : Prop :=
  ∀ (n : Nat) (s t : State), s.status = .running → s.pc = 0 → stepTimes n s = .next t →
    (t.status = .running → t.pc = 6 * n) ∧ (t.status ≠ .running → t.pc + 6 = 6 * n)

/-- R110 and R180 (section 4 of 60_exceptions.md): a terminal state has no step. That the step's answer is the fault
`terminated` is the model's form of it (log entry 5). -/
def Obligations.TerminalStatesHaveNoStep : Prop :=
  ∀ s : State, s.status ≠ .running → step s = .fault .terminated

/-- Section 2 of 70_reset_and_hazards.md (decision D13): before the first load nothing runs; the refusal is the
model's form of "not defined" (log entry 6). -/
def Obligations.NothingRunsBeforeFirstLoad : Prop :=
  ∀ s : State, s.prog = none →
    hostRun s = .refused .noProgram ∧ hostReset s = .notDefined ∧
    (s.status = .running → step s = .refused .noProgram)

/-! ### The instructions -/

/-- LOAD_CONST completes wherever the stack has room: the integer `b` on top, the pc advanced, nothing else changed
(41_load_const.md; the tag is decision D2). -/
def Obligations.LoadConstPushes : Prop :=
  ∀ (b : Nat) (s : State), (∀ c, s.params.stackCapacity = some c → s.stack.length < c) →
    exec (.loadConst b) s = .next { s with stack := .int (b : Int) :: s.stack, pc := s.pc + 6 }

/-- R143: READ_MEM's offset is added to the source index. It completes wherever the top is an integer whose sum with
the offset is a cell: the cell's value, tag and all, takes the index's place, the pc advances, nothing else changes.
The stack is within its capacity, as in every state a run reaches (`StepKeepsInvariant`). -/
def Obligations.ReadMemPushesCell : Prop :=
  ∀ (b : Nat) (s : State) (n : Int) (rest : List Value), s.stack = .int n :: rest →
    0 ≤ n + b → n + b < s.params.memSize → s.stackFits = true →
    exec (.readMem b) s = .next { s with stack := s.mem.read (n + b).toNat :: rest, pc := s.pc + 6 }

/-- R147: the address is pushed first and the value last. WRITE_MEM completes wherever the second value is an integer
that is a cell: both are popped, that cell holds the value, tag and all, every other cell reads as before, the pc
advances, nothing else changes. -/
def Obligations.WriteMemStores : Prop :=
  ∀ (s : State) (v : Value) (n : Int) (rest : List Value), s.mem.wf → s.stack = v :: .int n :: rest →
    0 ≤ n → n < s.params.memSize →
    exec .writeMem s = .next { s with stack := rest, mem := s.mem.write n.toNat v, pc := s.pc + 6 } ∧
    (s.mem.write n.toNat v).read n.toNat = v ∧
    ∀ j, j ≠ n.toNat → (s.mem.write n.toNat v).read j = s.mem.read j

/-- R163 and R166: the base is pushed first and the source index last, and the offset is added to the destination.
SQRT completes wherever both are integers that are cells, the destination with the offset, and the source's value is
not negative: both are popped, the destination holds the root as a real, every other cell reads as before, the pc
advances, nothing else changes. The same holds with every other square-root function of binary64 (R10). -/
def Obligations.SqrtStoresRoot : Prop :=
  ∀ (b : Nat) (s : State) (a base : Int) (rest : List Value), s.mem.wf → s.stack = .int a :: .int base :: rest →
    0 ≤ a → a < s.params.memSize → (s.mem.read a.toNat).isNegative = false →
    0 ≤ base + b → base + b < s.params.memSize →
    (exec (.sqrt b) s = .next { s with
        stack := rest
        mem := s.mem.write (base + b).toNat (.real (sqrtFn (s.mem.read a.toNat)))
        pc := s.pc + 6 }) ∧
    ∀ f : Value → Binary64,
      execWith { RealArith.default with sqrtFn := f } (.sqrt b) s = .next { s with
        stack := rest
        mem := s.mem.write (base + b).toNat (.real (f (s.mem.read a.toNat)))
        pc := s.pc + 6 } ∧
      (s.mem.write (base + b).toNat (.real (f (s.mem.read a.toNat)))).read (base + b).toNat =
        .real (f (s.mem.read a.toNat)) ∧
      ∀ j, j ≠ (base + b).toNat →
        (s.mem.write (base + b).toNat (.real (f (s.mem.read a.toNat)))).read j = s.mem.read j

/-- R165: where source and destination are one cell, the read happens first and the cell ends with the root of its
old value. -/
def Obligations.SqrtInPlace : Prop :=
  ∀ (b : Nat) (s : State) (a base : Int) (rest : List Value), s.mem.wf → s.stack = .int a :: .int base :: rest →
    0 ≤ a → a < s.params.memSize → base + b = a → (s.mem.read a.toNat).isNegative = false →
    ∃ t, exec (.sqrt b) s = .next t ∧ t.mem.read a.toNat = .real (sqrtFn (s.mem.read a.toNat))

/-- R131, whole: from the record's bytes, the push of `hi * 256 + lo`, or `StackOverflow` on a full bounded stack
(the fault is decision D7). -/
def Obligations.LoadConstRule : Prop :=
  ∀ (s : State) (p : List Byte) (hi lo x y z : Byte), s.status = .running → s.prog = some p →
    (p.drop s.pc).take 6 = [0x5A#8, hi, lo, x, y, z] →
    ((∀ c, s.params.stackCapacity = some c → s.stack.length < c) →
      step s = .next { s with stack := .int ((hi.toNat * 256 + lo.toNat : Nat) : Int) :: s.stack, pc := s.pc + 6 }) ∧
    (∀ c, s.params.stackCapacity = some c → c ≤ s.stack.length →
      step s = .next (s.faulted .stackOverflow (some 0x5A#8) none none))

/-- R141, whole: from the record's bytes, the load, or the first fault in the order underflow, type, bound (the type
fault is decision D4, the restored stack D9). -/
def Obligations.ReadMemRule : Prop :=
  ∀ (s : State) (p : List Byte) (b w x y z : Byte), s.status = .running → s.prog = some p →
    (p.drop s.pc).take 6 = [0x01#8, b, w, x, y, z] →
    (s.stack = [] → step s = .next (s.faulted .stackUnderflow (some 0x01#8) none none)) ∧
    (∀ r rest, s.stack = .real r :: rest →
      step s = .next (s.faulted .addressNotInteger (some 0x01#8) none (some (.real r)))) ∧
    (∀ n rest, s.stack = .int n :: rest → s.stackFits = true →
      step s = if 0 ≤ n + (b.toNat : Int) ∧ n + (b.toNat : Int) < s.params.memSize then
          .next { s with stack := s.mem.read (n + (b.toNat : Int)).toNat :: rest, pc := s.pc + 6 }
        else .next (s.faulted .addressOutOfBounds (some 0x01#8) (some (n + (b.toNat : Int))) none))

/-- R145, whole: from the record's bytes, the store, or the first fault in the order underflow on either pop, type,
bound (the type fault is decision D4, the restored stack D9). -/
def Obligations.WriteMemRule : Prop :=
  ∀ (s : State) (p : List Byte) (b w x y z : Byte), s.status = .running → s.prog = some p →
    (p.drop s.pc).take 6 = [0x3E#8, b, w, x, y, z] →
    (s.stack.length < 2 → step s = .next (s.faulted .stackUnderflow (some 0x3E#8) none none)) ∧
    (∀ v r rest, s.stack = v :: .real r :: rest →
      step s = .next (s.faulted .addressNotInteger (some 0x3E#8) none (some (.real r)))) ∧
    (∀ v n rest, s.stack = v :: .int n :: rest →
      step s = if 0 ≤ n ∧ n < s.params.memSize then
          .next { s with stack := rest, mem := s.mem.write n.toNat v, pc := s.pc + 6 }
        else .next (s.faulted .addressOutOfBounds (some 0x3E#8) (some n) none))

/-- The faults of SQRT from the record's bytes, in the order of 43_sqrt.md: underflow, source type, source bound,
underflow of the second pop, domain, destination type, destination bound. The place of the domain check is the spec's
own choice (decision D10, log entry 13), the type fault D4, the domain fault D5, the restored stack D9. -/
def Obligations.SqrtFaultOrder : Prop :=
  ∀ (s : State) (p : List Byte) (b w x y z : Byte), s.status = .running → s.prog = some p →
    (p.drop s.pc).take 6 = [0x89#8, b, w, x, y, z] →
    (s.stack = [] → step s = .next (s.faulted .stackUnderflow (some 0x89#8) none none)) ∧
    (∀ r below, s.stack = .real r :: below →
      step s = .next (s.faulted .addressNotInteger (some 0x89#8) none (some (.real r)))) ∧
    (∀ a below, s.stack = .int a :: below → ¬ (0 ≤ a ∧ a < s.params.memSize) →
      step s = .next (s.faulted .addressOutOfBounds (some 0x89#8) (some a) none)) ∧
    (∀ a below, s.stack = .int a :: below → 0 ≤ a → a < s.params.memSize →
      (below = [] → step s = .next (s.faulted .stackUnderflow (some 0x89#8) none none)) ∧
      (∀ base rest, below = base :: rest → (s.mem.read a.toNat).isNegative = true →
        step s = .next (s.faulted .sqrtDomain (some 0x89#8) none (some (s.mem.read a.toNat)))) ∧
      (∀ r rest, below = .real r :: rest → (s.mem.read a.toNat).isNegative = false →
        step s = .next (s.faulted .addressNotInteger (some 0x89#8) none (some (.real r)))) ∧
      (∀ n rest, below = .int n :: rest → (s.mem.read a.toNat).isNegative = false →
        ¬ (0 ≤ n + (b.toNat : Int) ∧ n + (b.toNat : Int) < s.params.memSize) →
        step s = .next (s.faulted .addressOutOfBounds (some 0x89#8) (some (n + (b.toNat : Int))) none)))

/-- Section 2 of 60_exceptions.md: an instruction either completes, with no effect but on the stack, the memory and
the pc, or enters a fault with no effect but on the status; the record names the pc, the opcode byte there and the
fields of its kind (the restored stack is decision D9, log entry 12; the record D11). -/
def Obligations.ExecCompletesOrFaultsPrecisely : Prop :=
  ∀ (i : Instr) (s : State),
    (∃ stack mem, exec i s = .next { s with stack := stack, mem := mem, pc := s.pc + 6 }) ∨
    (∃ r, exec i s = .next { s with status := .fault r } ∧ r.faultPc = s.pc ∧ r.faultOpcode = s.progByte s.pc ∧
      r.wellFormed = true ∧ r.kind ≠ .illegalOpcode)

/-- R130: LOAD_CONST is the only instruction that grows the stack, by one, and the only one that creates a new
integer: after any other, every integer on the stack or in a cell was on the stack or in a cell before. The cells are
those of R26 and R58, the indices below `MEM_SIZE`. -/
def Obligations.OnlyLoadConstGrowsOrCreates : Prop :=
  ∀ (i : Instr) (s t : State), s.mem.wf → exec i s = .next t →
    (s.stack.length < t.stack.length → (∃ b, i = .loadConst b) ∧ t.stack.length = s.stack.length + 1) ∧
    ((∀ b, i ≠ .loadConst b) → ∀ n : Int,
      (.int n ∈ t.stack ∨ ∃ j < s.params.memSize, t.mem.read j = .int n) →
      (.int n ∈ s.stack ∨ ∃ j < s.params.memSize, s.mem.read j = .int n))

/-! ### Memory and program -/

/-- Section 7 of 20_memory.md: a read returns the value of the most recent write to that cell, or `Int(0)` where
there has been none since reset. -/
def Obligations.ReadsReturnLastWrite : Prop :=
  ∀ (writes : List (Nat × Value)) (i : Nat),
    Memory.read (writes.foldl (fun m w => m.write w.1 w.2) []) i =
      (((writes.filter fun w => w.1 == i).getLast?).map fun w => w.2).getD (.int 0)

/-- The canonical form of the model's memory: two memories in it whose cells read the same are the same data
(section 1 of 20_memory.md: a memory is its cells). -/
def Obligations.EqualCellsEqualMemories : Prop :=
  ∀ m m' : Memory, m.wf → m'.wf → (∀ i, m.read i = m'.read i) → m = m'

/-- No instruction writes the program space (R221, R66): no step changes the program. That no step changes the
parameters is about the model's own field `params`, which holds what R34 says is no state (DESIGN CHOICE, log entry 1). -/
def Obligations.StepNeverWritesProgram : Prop :=
  ∀ s t : State, step s = .next t → t.prog = s.prog ∧ t.params = s.params

/-- Section 6 of 10_state.md: no instruction reads the program as data. What a completed instruction does is the same
over every program. -/
def Obligations.ProgramIsNotData : Prop :=
  ∀ (i : Instr) (s t : State) (other : Option (List Byte)), s.status = .running → exec i s = .next t →
    t.status = .running → exec i { s with prog := other } = .next { t with prog := other }

/-! ### Invariants and runs -/

/-- The reset state satisfies the invariant and the bound on values. -/
def Obligations.ResetSatisfiesInvariant : Prop := State.reset.Invariant ∧ State.reset.ValuesBounded

/-- Every step keeps the invariant: legal parameters, canonical memory inside `[0, MEM_SIZE)`, a program of whole
records, a pc at a record boundary inside the program, a stack within its capacity, and a status that agrees with the
rest (sections 3 to 8 of 10_state.md). -/
def Obligations.StepKeepsInvariant : Prop :=
  ∀ s t : State, s.Invariant → step s = .next t → t.Invariant

/-- A program accepted by `load` and then a `reset` give a state with the invariant, bounded values, that program,
pc 0, an empty stack and every cell `Int(0)` (sections 1 and 2 of 70_reset_and_hazards.md; decisions D13, D15). -/
def Obligations.LoadThenResetIsReady : Prop :=
  ∀ (program : List Byte) (s s' t : State), s.params.wellFormed = true →
    hostLoad program s = (.accepted, s') → hostReset s' = .ok t →
    t.Invariant ∧ t.ValuesBounded ∧ t.prog = some program ∧ t.status = .running ∧ t.pc = 0 ∧ t.stack = [] ∧
      ∀ i, t.mem.read i = .int 0

/-- Every step keeps the bound on values (section 4 of 00_scope.md, an inference the spec marks as its own): integers
in `[0, 65535]`, reals in `[0, 256)`. For the reals it rests on the default square root (log entry 2). -/
def Obligations.StepKeepsValuesBounded : Prop :=
  ∀ s t : State, s.ValuesBounded → step s = .next t → t.ValuesBounded

/-- SQRT's domain fault never fires where the values are bounded (43_sqrt.md, an inference the spec marks as its
own). -/
def Obligations.SqrtDomainNeverFires : Prop :=
  ∀ s t : State, s.ValuesBounded → step s = .next t → ∀ r, t.status = .fault r → r.kind ≠ .sqrtDomain

/-- Every run returns, within `len(prog)/6 + 1` steps (section 2 of 40_execution_loop.md, an inference the spec marks
as its own): in a terminal state with the invariant, at the program's end if it is `DONE`, at a record of the program
if it is a fault. -/
def Obligations.RunAlwaysReturns : Prop :=
  ∀ s : State, s.Invariant → s.prog ≠ none →
    ∃ t, hostRun s = .next t ∧ t.Invariant ∧
      (t.status = .done ∧ t.pc = t.progLength ∨ ∃ r, t.status = .fault r ∧ r.faultPc = t.pc ∧ t.pc < t.progLength)

/-! ### The square root -/

/-- The root of `k * k` is `k`, whether the operand is an integer or a real, for every perfect square that a binary64
datum holds exactly; and the datum of `k` denotes `k`. The law of 43_sqrt.md (decision D3) reaches `k * k ≤ 65535` only.
The range beyond it and the bits of the datum are the model's: they rest on the binary64 default (PRESUMED, log entry
2). -/
def Obligations.SqrtOfPerfectSquare : Prop :=
  ∀ k : Nat, k * k < 2 ^ 53 →
    sqrtFn (.int ((k * k : Nat) : Int)) = realOfNat k ∧ sqrtFn (.real (realOfNat (k * k))) = realOfNat k ∧
    realNum (realOfNat k) = some (k : ℚ)

/-- The default square root is correctly rounded (section 4 of 00_scope.md, decision D3; PRESUMED format, log entry
2): no datum is nearer to the exact root, and of two that are equally near it is the one with the even significand. -/
def Obligations.SqrtIsCorrectlyRounded : Prop :=
  ∀ (v : Value) (x : ℚ), v.num = some x → 0 ≤ x → x < 2 ^ 1024 →
    ∃ q : ℚ, realNum (sqrtFn v) = some q ∧
      ∀ (r : Binary64) (q' : ℚ), realNum r = some q' →
        |(q : ℝ) - Real.sqrt (x : ℝ)| ≤ |(q' : ℝ) - Real.sqrt (x : ℝ)| ∧
        (|(q : ℝ) - Real.sqrt (x : ℝ)| = |(q' : ℝ) - Real.sqrt (x : ℝ)| → q ≠ q' →
          realFraction (sqrtFn v) % 2 = 0)

/-- The root of a NaN is a NaN, whatever the free value (the model's choice, log entry 3). -/
def Obligations.SqrtOfNaNIsNaN : Prop :=
  ∀ r : Binary64, realIsNaN r = true → realIsNaN (sqrtFn (.real r)) = true

/-! ### The parameters -/

/-- Section 4 of 00_scope.md: the engine takes each parameter as an argument, and this hardware is the engine at the
defaults: its reset state, `exec`, `step` and `run` are those of the engine over `Params.default` and
`RealArith.default`. -/
def Obligations.DefaultParametersAreThisHardware : Prop :=
  State.reset = State.initial Params.default ∧
  (∀ (i : Instr) (s : State), exec i s = execWith RealArith.default i s) ∧
  (∀ s : State, step s = stepWith RealArith.default s) ∧ ∀ s : State, hostRun s = hostRunWith RealArith.default s

/-- SQRT from its bytes, for every `REAL`, `SQRT_FN` and sign test of a real (section 4 of 00_scope.md, 43_sqrt.md):
where source and destination are cells and the source's value is not negative, both indices are popped, the
destination holds the root as a real, every other cell reads as before, the pc advances, nothing else changes. -/
def Obligations.SqrtRuleForEveryReal : Prop :=
  ∀ (R : Type) (A : RealArith R) (s : State R) (p : List Byte) (b w x y z : Byte) (a base : Int)
    (rest : List (Value R)), s.status = .running → s.prog = some p →
    (p.drop s.pc).take 6 = [0x89#8, b, w, x, y, z] → s.mem.wf → s.stack = .int a :: .int base :: rest →
    0 ≤ a → a < s.params.memSize → (s.mem.read a.toNat).isNegativeBy A.isNegative = false →
    0 ≤ base + (b.toNat : Int) → base + (b.toNat : Int) < s.params.memSize →
    ∃ mem : Memory R, stepWith A s = .next { s with stack := rest, mem := mem, pc := s.pc + 6 } ∧
      mem.read (base + (b.toNat : Int)).toNat = .real (A.sqrtFn (s.mem.read a.toNat)) ∧
      ∀ j, j ≠ (base + (b.toNat : Int)).toNat → mem.read j = s.mem.read j

/-- The law of 43_sqrt.md (decision D3) is all that a model must know of `REAL` and `SQRT_FN`: the default satisfies it,
and under every `REAL` and `SQRT_FN` that does, SQRT of a cell that denotes `k * k ≤ 65535` leaves a real that denotes
exactly `k`, whether the cell holds an integer or a real. -/
def Obligations.LawfulRootOfPerfectSquareIsExact : Prop :=
  RealArith.default.Lawful (fun r => (realNum r).map fun q : ℚ => (q : ℝ)) ∧
  ∀ (R : Type) (A : RealArith R) (num : R → Option ℝ), A.Lawful num →
    ∀ (b k : Nat) (s : State R) (a base : Int) (rest : List (Value R)), s.mem.wf →
      s.stack = .int a :: .int base :: rest → 0 ≤ a → a < s.params.memSize →
      0 ≤ base + b → base + b < s.params.memSize → k * k ≤ 65535 →
      (s.mem.read a.toNat = .int ((k * k : Nat) : Int) ∨
        ∃ r, s.mem.read a.toNat = .real r ∧ num r = some ((k * k : Nat) : ℝ)) →
      ∃ (t : State R) (r : R), execWith A (.sqrt b) s = .next t ∧ t.status = s.status ∧
        t.mem.read (base + b).toNat = .real r ∧ num r = some (k : ℝ)

/-! ### The host -/

/-- `load` (section 1 of 70_reset_and_hazards.md; the refusals are decision D8): what it accepts becomes the program
and nothing else changes; what it refuses changes nothing. -/
def Obligations.LoadAcceptsOrChangesNothing : Prop :=
  ∀ (program : List Byte) (s : State),
    (s.prog ≠ none → s.status = .running → hostLoad program s = (.busy, s)) ∧
    (s.prog = none ∨ s.status ≠ .running →
      (program.length % 6 = 0 → (∀ most, s.params.progMaxBytes = some most → program.length ≤ most) →
        hostLoad program s = (.accepted, { s with prog := some program })) ∧
      (program.length % 6 ≠ 0 → hostLoad program s = (.lengthError, s)) ∧
      (∀ most, s.params.progMaxBytes = some most → most < program.length → hostLoad program s = (.lengthError, s)))

/-- `reset` leaves the reset values and keeps the program, from every terminal state of a loaded engine
(70_reset_and_hazards.md sections 1 and 2; decisions D13, D15). -/
def Obligations.ResetLeavesResetValues : Prop :=
  ∀ s : State, s.prog ≠ none → s.status ≠ .running →
    ∃ t, hostReset s = .ok t ∧ t.pc = 0 ∧ t.stack = [] ∧ (∀ i, t.mem.read i = .int 0) ∧ t.status = .running ∧
      t.prog = s.prog ∧ t.params = s.params

/-- R205: in a terminal state and inside the bounds, the pairs of index and cell from `first` to `last` inclusive, in
increasing order. (It changes no state: the operation returns none.) -/
def Obligations.ReadResultReturnsSlice : Prop :=
  ∀ (s : State) (first last : Int), s.status ≠ .running → 0 ≤ first → first ≤ last → last < s.params.memSize →
    ∃ cells, hostReadResult first last s = .ok cells ∧ (cells.length : Int) = last - first + 1 ∧
      ∀ k, k < cells.length → cells[k]? = some (first.toNat + k, s.mem.read (first.toNat + k))

/-- `read_result` outside the bounds or with `start > end` is a range error (70_reset_and_hazards.md section 1; the case
`start > end` is decision D12). That a running engine answers `notDefined` is the model's own form of "defined only when
`status ≠ RUNNING`" (DEDUCED, log entry 14). -/
def Obligations.ReadResultRefusesOutside : Prop :=
  ∀ (s : State) (first last : Int),
    (s.status ≠ .running → (first < 0 ∨ (s.params.memSize : Int) ≤ last ∨ last < first) →
      hostReadResult first last s = .rangeError) ∧
    (s.status = .running → hostReadResult first last s = .notDefined)

/-- `read_state` returns status, pc and the stack from bottom to top, in terminal states only
(70_reset_and_hazards.md section 1; decision D12): the last of the listed values is the top. That a running engine
answers `notDefined` is the model's own form of "defined only when `status ≠ RUNNING`" (DEDUCED, log entry 14). -/
def Obligations.ReadStateListsStackBottomUp : Prop :=
  ∀ s : State,
    (s.status ≠ .running → ∃ values, hostReadState s = .ok (s.status, s.pc, values) ∧
      values.length = s.stack.length ∧
      ∀ k, k < values.length → values[k]? = s.stack[s.stack.length - 1 - k]?) ∧
    (s.status = .running → hostReadState s = .notDefined)

/-! ### The assembler -/

/-- R94: the record each form of line emits, and the records in line order, concatenated. -/
def Obligations.RecordEmission : Prop :=
  (∀ (line : List Char) (b : Nat),
    (parseLine line = some (.two 90 b) → b ≤ 65535 → ∃ i, emittedBy line = some i ∧
      (encode i).map BitVec.toNat = [0x5A, b / 256, b % 256, 0, 0, 0]) ∧
    (parseLine line = some (.two 1 b) → b ≤ 255 → ∃ i, emittedBy line = some i ∧
      (encode i).map BitVec.toNat = [0x01, b, 0, 0, 0, 0]) ∧
    (parseLine line = some (.two 137 b) → b ≤ 255 → ∃ i, emittedBy line = some i ∧
      (encode i).map BitVec.toNat = [0x89, b, 0, 0, 0, 0]) ∧
    (parseLine line = some (.one 62) → ∃ i, emittedBy line = some i ∧
      (encode i).map BitVec.toNat = [0x3E, 0, 0, 0, 0, 0])) ∧
  ∀ text o, assemble text = .ok o →
    o.bytes = ((linesFrom [] text).filterMap emittedBy).flatMap encode

/-- The checks of section 5 of 30_encoding.md in their order (decision D16): line form, opcode, arity, range. -/
def Obligations.LineChecksInOrder : Prop :=
  ∀ line : List Char,
    (parseLine line = none → assembleLine line = .fatal .parseError) ∧
    (∀ a, a ≠ 1 → a ≠ 62 → a ≠ 90 → a ≠ 137 →
      (parseLine line = some (.one a) → assembleLine line = .skip .unrecognizedOpcode) ∧
      ∀ b, parseLine line = some (.two a b) → assembleLine line = .skip .unrecognizedOpcode) ∧
    (∀ a, a = 1 ∨ a = 90 ∨ a = 137 → parseLine line = some (.one a) → assembleLine line = .skip .wrongArity) ∧
    (∀ b, parseLine line = some (.two 62 b) → assembleLine line = .skip .wrongArity) ∧
    (∀ b, parseLine line = some (.two 90 b) → b < 0 ∨ 65535 < b → assembleLine line = .fatal .rangeError) ∧
    (∀ a b, a = 1 ∨ a = 137 → parseLine line = some (.two a b) → b < 0 ∨ 255 < b →
      assembleLine line = .fatal .rangeError)

/-- R95: the output has six bytes for each line that emits, and the `k`-th record decodes to the instruction of the
`k`-th of them, whose opcode and operand are the line's numbers. -/
def Obligations.AssembledRecordsDecodeBack : Prop :=
  ∀ (text : List Char) (o : Assembled), assemble text = .ok o →
    o.bytes.length = 6 * ((linesFrom [] text).filterMap emittedBy).length ∧
    (∀ (k : Nat) (i : Instr), ((linesFrom [] text).filterMap emittedBy)[k]? = some i →
      decode ((o.bytes.drop (6 * k)).take 6) = .instr i) ∧
    (∀ (line : List Char) (i : Instr), emittedBy line = some i →
      parseLine line = match operandOf i with
        | none => some (.one (i.opcode.toNat : Int))
        | some b => some (.two (i.opcode.toNat : Int) (b : Int)))

/-- A program the assembler wrote never ends in `IllegalOpcode` (sections 4 and 5 of 30_encoding.md): its records are
all of assigned opcodes. -/
def Obligations.AssembledProgramIsNeverIllegal : Prop :=
  ∀ (text : List Char) (o : Assembled) (s s' t u : State), s.params.wellFormed = true → assemble text = .ok o →
    hostLoad o.bytes s = (.accepted, s') → hostReset s' = .ok t → hostRun t = .next u →
    ∀ r, u.status = .fault r → r.kind ≠ .illegalOpcode
end

