-- ==== Sys2Proof/Laws/Memory.lean ====
section
/-! SUPPORT. The laws of the data memory: read after write, and the canonical form. -/

namespace Sys2Proof.Machine

variable {R : Type}

/-- `isZero` says that the value is `Int(0)`. -/
theorem isZero_iff {v : Value R} : v.isZero = true ↔ v = Value.zero := by
  cases v <;> simp [Value.isZero, Value.zero]

@[simp] theorem isZero_zero : (Value.zero : Value R).isZero = true := rfl

/-- A value that is not `Int(0)`, as `isZero` says it. -/
theorem isZero_eq_false {v : Value R} : v.isZero = false ↔ v ≠ Value.zero := by
  rw [ne_eq, ← isZero_iff, Bool.not_eq_true]

@[simp] theorem read_nil (i : Nat) : Memory.read ([] : Memory R) i = Value.zero := rfl

@[simp] theorem read_cons (c : Nat × Value R) (m : Memory R) (i : Nat) :
    Memory.read (c :: m) i = if c.1 = i then c.2 else Memory.read m i := rfl

/-- A cell below every listed index holds `Int(0)`. -/
theorem read_below {m : Memory R} {i : Nat} (h : ∀ c ∈ m, i < c.1) : Memory.read m i = Value.zero := by
  induction m with
  | nil => rfl
  | cons c m ih =>
    have hc := h c (by simp)
    rw [read_cons, if_neg (by omega)]
    exact ih fun d hd => h d (by simp [hd])

/-- What a write can list: the cell written, or a cell listed before. -/
theorem mem_write {m : Memory R} {i : Nat} {v : Value R} {c : Nat × Value R} (h : c ∈ Memory.write m i v) :
    (c = (i, v) ∧ v ≠ Value.zero) ∨ c ∈ m := by
  induction m with
  | nil =>
    by_cases hv : v.isZero = true
    · simp [Memory.write, hv] at h
    · simp only [Memory.write, if_neg hv, List.mem_singleton] at h
      exact .inl ⟨h, mt isZero_iff.2 hv⟩
  | cons d m ih =>
    obtain ⟨a, w⟩ := d
    rw [Memory.write] at h
    split at h
    · split at h
      · exact .inr h
      · rename_i hv
        rcases List.mem_cons.1 h with h | h
        · exact .inl ⟨h, mt isZero_iff.2 hv⟩
        · exact .inr h
    · split at h
      · split at h
        · exact .inr (by simp [h])
        · rename_i hv
          rcases List.mem_cons.1 h with h | h
          · exact .inl ⟨h, mt isZero_iff.2 hv⟩
          · exact .inr (by simp [h])
      · rcases List.mem_cons.1 h with h | h
        · exact .inr (by simp [h])
        · rcases ih h with h | h
          · exact .inl h
          · exact .inr (by simp [h])

/-- A canonical memory's tail is canonical, and lists only indices above the head's. -/
theorem wf_cons {a : Nat} {w : Value R} {m : Memory R} :
    Memory.wf ((a, w) :: m) ↔ (∀ c ∈ m, a < c.1) ∧ w ≠ Value.zero ∧ Memory.wf m := by
  simp only [Memory.wf, List.pairwise_cons, List.mem_cons, forall_eq_or_imp]
  tauto

/-- `MemRead` after `MemWrite`: the cell written holds the value, every other cell is as before (R57, R62). -/
theorem read_write {m : Memory R} (hm : m.wf) (i : Nat) (v : Value R) (j : Nat) :
    (m.write i v).read j = if j = i then v else m.read j := by
  induction m with
  | nil =>
    by_cases hv : v.isZero = true
    · simp [Memory.write, isZero_iff.1 hv]
    · simp [Memory.write, hv, eq_comm]
  | cons d m ih =>
    obtain ⟨a, w⟩ := d
    obtain ⟨hlow, -, hwf⟩ := wf_cons.1 hm
    rw [Memory.write]
    split
    · rename_i hia
      split
      · rename_i hv
        split
        · rename_i hji
          rw [read_cons, if_neg (by simp only; omega), isZero_iff.1 hv]
          subst hji
          exact read_below fun c hc => by have := hlow c hc; omega
        · rfl
      · by_cases hji : j = i
        · simp [hji]
        · rw [read_cons, if_neg (by simp only; omega), if_neg hji]
    · split
      · rename_i hnot hia
        subst hia
        split
        · rename_i hv
          split
          · rename_i hji
            rw [isZero_iff.1 hv, hji]
            exact read_below hlow
          · rename_i hji
            rw [read_cons, if_neg (by simp only; omega)]
        · by_cases hji : j = i
          · simp [hji]
          · simp [hji, Ne.symm hji]
      · rename_i hnot hne
        rw [read_cons, read_cons, ih hwf]
        by_cases haj : a = j
        · subst haj
          rw [if_pos rfl, if_pos rfl, if_neg (by omega)]
        · rw [if_neg haj, if_neg haj]

/-- A write keeps the canonical form. -/
theorem write_wf {m : Memory R} (hm : m.wf) (i : Nat) (v : Value R) : (m.write i v).wf := by
  induction m with
  | nil =>
    by_cases hv : v.isZero = true
    · simp [Memory.write, hv, Memory.wf]
    · simp [Memory.write, hv, Memory.wf, mt isZero_iff.2 hv]
  | cons d m ih =>
    obtain ⟨a, w⟩ := d
    obtain ⟨hlow, hw, hwf⟩ := wf_cons.1 hm
    rw [Memory.write]
    split
    · rename_i hia
      split
      · exact hm
      · rename_i hv
        refine wf_cons.2 ⟨?_, mt isZero_iff.2 hv, hm⟩
        intro c hc
        rcases List.mem_cons.1 hc with rfl | hc
        · exact hia
        · have := hlow c hc
          omega
    · split
      · rename_i hnot hia
        subst hia
        split
        · exact hwf
        · rename_i hv
          exact wf_cons.2 ⟨hlow, mt isZero_iff.2 hv, hwf⟩
      · rename_i hnot hne
        refine wf_cons.2 ⟨?_, hw, ih hwf⟩
        intro c hc
        rcases mem_write hc with ⟨rfl, -⟩ | hc
        · simp only
          omega
        · exact hlow c hc

/-- A write of one of the memory's cells lists none outside it. -/
theorem write_within {m : Memory R} {size i : Nat} (hm : m.within size) (hi : i < size) (v : Value R) :
    (m.write i v).within size := by
  intro c hc
  rcases mem_write hc with ⟨rfl, -⟩ | hc
  · exact hi
  · exact hm c hc

/-- The reset memory has the canonical form and lists no cell. -/
theorem wf_nil : Memory.wf ([] : Memory R) := ⟨.nil, by simp⟩

theorem within_nil (size : Nat) : Memory.within ([] : Memory R) size := by simp [Memory.within]

/-- A read gives `Int(0)` or a listed value. -/
theorem read_cases (m : Memory R) (i : Nat) : m.read i = Value.zero ∨ (i, m.read i) ∈ m := by
  induction m with
  | nil => exact .inl rfl
  | cons c m ih =>
    obtain ⟨a, w⟩ := c
    rw [read_cons]
    split
    · rename_i h
      exact .inr (by simp only at h; simp [h])
    · rcases ih with h | h
      · exact .inl h
      · exact .inr (List.mem_cons_of_mem _ h)

end Sys2Proof.Machine
end

