-- ==== Sys2Proof/Laws/State.lean ====
section
/-! SUPPORT. One lemma per field of `State` per named update, and the reset state's fields. -/

namespace Sys2Proof.Machine

variable {R : Type}

@[simp] theorem withStatus_params (s : State R) (st : Status R) : (s.withStatus st).params = s.params := rfl
@[simp] theorem withStatus_prog (s : State R) (st : Status R) : (s.withStatus st).prog = s.prog := rfl
@[simp] theorem withStatus_pc (s : State R) (st : Status R) : (s.withStatus st).pc = s.pc := rfl
@[simp] theorem withStatus_stack (s : State R) (st : Status R) : (s.withStatus st).stack = s.stack := rfl
@[simp] theorem withStatus_mem (s : State R) (st : Status R) : (s.withStatus st).mem = s.mem := rfl
@[simp] theorem withStatus_status (s : State R) (st : Status R) : (s.withStatus st).status = st := rfl

@[simp] theorem complete_params (s : State R) (k : List (Value R)) (m : Memory R) : (s.complete k m).params = s.params := rfl
@[simp] theorem complete_prog (s : State R) (k : List (Value R)) (m : Memory R) : (s.complete k m).prog = s.prog := rfl
@[simp] theorem complete_pc (s : State R) (k : List (Value R)) (m : Memory R) : (s.complete k m).pc = s.pc + 6 := rfl
@[simp] theorem complete_stack (s : State R) (k : List (Value R)) (m : Memory R) : (s.complete k m).stack = k := rfl
@[simp] theorem complete_mem (s : State R) (k : List (Value R)) (m : Memory R) : (s.complete k m).mem = m := rfl
@[simp] theorem complete_status (s : State R) (k : List (Value R)) (m : Memory R) : (s.complete k m).status = s.status := rfl

@[simp] theorem takeFault_params (s : State R) (r : Raised R) : (takeFault s r).params = s.params := rfl
@[simp] theorem takeFault_prog (s : State R) (r : Raised R) : (takeFault s r).prog = s.prog := rfl
@[simp] theorem takeFault_pc (s : State R) (r : Raised R) : (takeFault s r).pc = s.pc := rfl
@[simp] theorem takeFault_stack (s : State R) (r : Raised R) : (takeFault s r).stack = s.stack := rfl
@[simp] theorem takeFault_mem (s : State R) (r : Raised R) : (takeFault s r).mem = s.mem := rfl
@[simp] theorem takeFault_status (s : State R) (r : Raised R) : (takeFault s r).status = .fault (faultRecord s r) := rfl

@[simp] theorem resetRun_params (s : State R) : s.resetRun.params = s.params := rfl
@[simp] theorem resetRun_prog (s : State R) : s.resetRun.prog = s.prog := rfl
@[simp] theorem resetRun_pc (s : State R) : s.resetRun.pc = 0 := rfl
@[simp] theorem resetRun_stack (s : State R) : s.resetRun.stack = [] := rfl
@[simp] theorem resetRun_mem (s : State R) : s.resetRun.mem = [] := rfl
@[simp] theorem resetRun_status (s : State R) : s.resetRun.status = .running := rfl

@[simp] theorem withFetchWord_params (s : State) (n w : Nat) : (s.withFetchWord n w).params = s.params := rfl
@[simp] theorem withFetchWord_prog (s : State) (n w : Nat) :
    (s.withFetchWord n w).prog = some (placeRecord s.progBytes s.pc (tableRecord n w)) := rfl
@[simp] theorem withFetchWord_pc (s : State) (n w : Nat) : (s.withFetchWord n w).pc = s.pc := rfl
@[simp] theorem withFetchWord_stack (s : State) (n w : Nat) : (s.withFetchWord n w).stack = s.stack := rfl
@[simp] theorem withFetchWord_mem (s : State) (n w : Nat) : (s.withFetchWord n w).mem = s.mem := rfl
@[simp] theorem withFetchWord_status (s : State) (n w : Nat) : (s.withFetchWord n w).status = .running := rfl

@[simp] theorem initial_params (p : Params) : (State.initial p : State R).params = p := rfl
@[simp] theorem initial_prog (p : Params) : (State.initial p : State R).prog = none := rfl
@[simp] theorem initial_pc (p : Params) : (State.initial p : State R).pc = 0 := rfl
@[simp] theorem initial_stack (p : Params) : (State.initial p : State R).stack = [] := rfl
@[simp] theorem initial_mem (p : Params) : (State.initial p : State R).mem = [] := rfl
@[simp] theorem initial_status (p : Params) : (State.initial p : State R).status = .running := rfl

/-- `isRunning` says that the status is `RUNNING`. -/
@[simp] theorem isRunning_iff {st : Status R} : st.isRunning = true ↔ st = .running := by
  cases st <;> simp [Status.isRunning]
@[simp] theorem isRunning_eq_false {st : Status R} : st.isRunning = false ↔ st ≠ .running := by
  cases st <;> simp [Status.isRunning]

@[simp] theorem reset_params : State.reset.params = Params.default := rfl
@[simp] theorem reset_prog : State.reset.prog = none := rfl
@[simp] theorem reset_pc : State.reset.pc = 0 := rfl
@[simp] theorem reset_stack : State.reset.stack = [] := rfl
@[simp] theorem reset_mem : State.reset.mem = [] := rfl
@[simp] theorem reset_status : State.reset.status = .running := rfl

@[simp] theorem progBytes_withStatus (s : State R) (st : Status R) : (s.withStatus st).progBytes = s.progBytes := rfl
@[simp] theorem progBytes_complete (s : State R) (k : List (Value R)) (m : Memory R) :
    (s.complete k m).progBytes = s.progBytes := rfl
@[simp] theorem progBytes_takeFault (s : State R) (r : Raised R) : (takeFault s r).progBytes = s.progBytes := rfl
@[simp] theorem progLength_withStatus (s : State R) (st : Status R) : (s.withStatus st).progLength = s.progLength := rfl
@[simp] theorem progLength_complete (s : State R) (k : List (Value R)) (m : Memory R) :
    (s.complete k m).progLength = s.progLength := rfl
@[simp] theorem progLength_takeFault (s : State R) (r : Raised R) : (takeFault s r).progLength = s.progLength := rfl

end Sys2Proof.Machine
end

