-- ==== Sys2Proof/Laws/Ops.lean ====
section
/-! SUPPORT. What each shared operation can do, said once: `pop`, `push`, `index`, `settle`. -/

namespace Sys2Proof.Machine

variable {R : Type}

@[simp] theorem pop_nil : pop ([] : List (Value R)) = .error .stackUnderflow := rfl
@[simp] theorem pop_cons (v : Value R) (rest : List (Value R)) : pop (v :: rest) = .ok (v, rest) := rfl

@[simp] theorem bind_ok {α β : Type} (a : α) (f : α → Except (Raised R) β) :
    ((Except.ok a : Except (Raised R) α) >>= f) = f a := rfl
@[simp] theorem bind_error {α β : Type} (r : Raised R) (f : α → Except (Raised R) β) :
    ((Except.error r : Except (Raised R) α) >>= f) = .error r := rfl

/-- `pop` answers only on a stack with a top. -/
theorem pop_eq_ok {stack rest : List (Value R)} {v : Value R} : pop stack = .ok (v, rest) ↔ stack = v :: rest := by
  cases stack <;> simp

/-- `pop` fails only on the empty stack, with `StackUnderflow`. -/
theorem pop_eq_error {stack : List (Value R)} {r : Raised R} :
    pop stack = .error r ↔ stack = [] ∧ r = .stackUnderflow := by
  cases stack <;> simp [eq_comm]

/-- There is room exactly where no capacity is reached. -/
theorem hasRoom_iff {p : Params} {stack : List (Value R)} :
    hasRoom p stack = true ↔ ∀ c, p.stackCapacity = some c → stack.length < c := by
  unfold hasRoom
  cases p.stackCapacity <;> simp

/-- `push` answers exactly where there is room. -/
theorem push_eq_ok {p : Params} {v : Value R} {stack new : List (Value R)} :
    push p v stack = .ok new ↔ hasRoom p stack = true ∧ new = v :: stack := by
  by_cases h : hasRoom p stack = true
  · simp [push, h, @eq_comm _ new]
  · simp [push, h]

/-- `push` fails exactly on a full stack, with `StackOverflow`. -/
theorem push_eq_error {p : Params} {v : Value R} {stack : List (Value R)} {r : Raised R} :
    push p v stack = .error r ↔ hasRoom p stack = false ∧ r = .stackOverflow := by
  by_cases h : hasRoom p stack = true
  · simp [push, h]
  · simp [push, h, @eq_comm _ r]

@[simp] theorem index_real (p : Params) (r : R) (off : Nat) :
    index p (.real r) off = .error (.addressNotInteger (.real r)) := rfl

/-- The index of an integer inside the memory. -/
theorem index_int_inside {p : Params} {n : Int} {off : Nat} (h0 : 0 ≤ n + (off : Int))
    (h1 : n + (off : Int) < (p.memSize : Int)) : index p (.int n : Value R) off = .ok (n + (off : Int)).toNat := by
  simp [index, h0, h1]

/-- The index of an integer outside the memory. -/
theorem index_int_outside {p : Params} {n : Int} {off : Nat}
    (h : ¬ (0 ≤ n + (off : Int) ∧ n + (off : Int) < (p.memSize : Int))) :
    index p (.int n : Value R) off = .error (.addressOutOfBounds (n + (off : Int))) := by
  simp only [index, if_neg h]

/-- `index` answers only for an integer, with the exact sum, inside the memory. -/
theorem index_eq_ok {p : Params} {v : Value R} {off i : Nat} (h : index p v off = .ok i) :
    ∃ n : Int, v = .int n ∧ (i : Int) = n + (off : Int) ∧ i < p.memSize := by
  cases v with
  | real r => simp at h
  | int n =>
    by_cases hin : 0 ≤ n + (off : Int) ∧ n + (off : Int) < (p.memSize : Int)
    · rw [index_int_inside hin.1 hin.2] at h
      have hi : (n + (off : Int)).toNat = i := Except.ok.inj h
      exact ⟨n, rfl, by omega, by omega⟩
    · rw [index_int_outside hin] at h
      cases h

/-- A body's end is always a next state: the completed instruction or the fault entered. -/
theorem settle_eq_next {s t : State R} {e : Except (Raised R) (List (Value R) × Memory R)} :
    settle s e = .next t ↔
      (∃ stack mem, e = .ok (stack, mem) ∧ t = s.complete stack mem) ∨ (∃ r, e = .error r ∧ t = takeFault s r) := by
  rcases e with r | ⟨stack, mem⟩ <;> simp [settle, eq_comm]

@[simp] theorem settle_ok (s : State R) (stack : List (Value R)) (mem : Memory R) :
    settle s (.ok (stack, mem)) = .next (s.complete stack mem) := rfl
@[simp] theorem settle_error (s : State R) (r : Raised R) : settle s (.error r) = .next (takeFault s r) := rfl

/-- The stack is within its capacity exactly where no capacity is exceeded. -/
theorem stackFits_iff {s : State R} :
    s.stackFits = true ↔ ∀ c, s.params.stackCapacity = some c → s.stack.length ≤ c := by
  unfold State.stackFits
  cases s.params.stackCapacity <;> simp

/-- A running state's status agrees with anything. -/
theorem statusAgrees_of_running {s : State R} (h : s.status = .running) : s.statusAgrees = true := by
  simp [State.statusAgrees, h]

/-- `DONE` agrees with a pc at the program's end. -/
theorem statusAgrees_of_done {s : State R} (h : s.status = .done) :
    s.statusAgrees = true ↔ s.pc = s.progLength := by
  simp [State.statusAgrees, h]

/-- A fault agrees with a record of the pc inside the program, the byte there and the fields of its kind. -/
theorem statusAgrees_of_fault {s : State R} {r : FaultRecord R} (h : s.status = .fault r) :
    s.statusAgrees = true ↔
      s.pc < s.progLength ∧ r.faultPc = s.pc ∧ r.faultOpcode = s.progByte s.pc ∧ r.wellFormed = true := by
  simp [State.statusAgrees, h, and_assoc]

/-- The record of a fault taken has the fields of its kind (R31, R171). -/
theorem faultRecord_wellFormed (s : State R) (r : Raised R) : (faultRecord s r).wellFormed = true := by
  cases r <;> rfl

end Sys2Proof.Machine
end

