-- ==== Sys2Proof/Laws/Exec.lean ====
section
/-! SUPPORT. What each instruction's body can answer, said once, and the two ways an instruction ends. -/

namespace Sys2Proof.Machine

variable {R : Type}

@[simp] theorem isNegativeBy_int (neg : R → Bool) (n : Int) : (Value.int n).isNegativeBy neg = decide (n < 0) := rfl
@[simp] theorem isNegativeBy_real (neg : R → Bool) (r : R) : (Value.real r).isNegativeBy neg = neg r := rfl
@[simp] theorem default_sqrtFn : RealArith.default.sqrtFn = sqrtFn := rfl
@[simp] theorem isNegativeBy_default (v : Value) : v.isNegativeBy RealArith.default.isNegative = v.isNegative := rfl

/-- LOAD_CONST answers only where there is room: the constant on top. -/
theorem loadConstBody_eq_ok {b : Nat} {s : State R} {k : List (Value R)} {m : Memory R} :
    loadConstBody b s = .ok (k, m) ↔
      hasRoom s.params s.stack = true ∧ k = .int (b : Int) :: s.stack ∧ m = s.mem := by
  unfold loadConstBody
  rcases hp : push s.params (.int (b : Int)) s.stack with r | new
  · obtain ⟨hr, -⟩ := push_eq_error.1 hp
    simp [hr]
  · obtain ⟨hr, rfl⟩ := push_eq_ok.1 hp
    simp [hr, eq_comm, pure, Except.pure]

/-- READ_MEM answers only for an integer base on top whose sum with the offset is a cell: that cell's value in the
base's place. -/
theorem readMemBody_eq_ok {b : Nat} {s : State R} {k : List (Value R)} {m : Memory R}
    (h : readMemBody b s = .ok (k, m)) :
    ∃ (n : Int) (rest : List (Value R)) (i : Nat), s.stack = .int n :: rest ∧ index s.params (.int n : Value R) b = .ok i ∧
      hasRoom s.params rest = true ∧ k = s.mem.read i :: rest ∧ m = s.mem := by
  unfold readMemBody at h
  rcases hs : s.stack with _ | ⟨a, rest⟩
  · simp [hs] at h
  · rcases hi : index s.params a b with r | i
    · simp [hs, hi] at h
    · obtain ⟨n, rfl, -, -⟩ := index_eq_ok hi
      rcases hp : push s.params (s.mem.read i) rest with r | new
      · simp [hs, hi, hp] at h
      · obtain ⟨hr, rfl⟩ := push_eq_ok.1 hp
        simp only [hs, pop_cons, bind_ok, hi, hp, pure, Except.pure, Except.ok.injEq, Prod.mk.injEq] at h
        exact ⟨n, rest, i, rfl, hi, hr, h.1.symm, h.2.symm⟩

/-- WRITE_MEM answers only for a value above an integer that is a cell: both popped, the cell written. -/
theorem writeMemBody_eq_ok {s : State R} {k : List (Value R)} {m : Memory R} (h : writeMemBody s = .ok (k, m)) :
    ∃ (v : Value R) (n : Int) (i : Nat), s.stack = v :: .int n :: k ∧ index s.params (.int n : Value R) 0 = .ok i ∧
      m = s.mem.write i v := by
  unfold writeMemBody at h
  rcases hs : s.stack with _ | ⟨v, _ | ⟨addr, rest⟩⟩
  · simp [hs] at h
  · simp [hs] at h
  · rcases hi : index s.params addr 0 with r | i
    · simp [hs, hi] at h
    · obtain ⟨n, rfl, -, -⟩ := index_eq_ok hi
      simp only [hs, pop_cons, bind_ok, hi, pure, Except.pure, Except.ok.injEq, Prod.mk.injEq] at h
      obtain ⟨rfl, rfl⟩ := h
      exact ⟨v, n, i, rfl, hi, rfl⟩

/-- SQRT answers only for two integers that are cells, the source's value not negative: both popped, the root
written. -/
theorem sqrtBody_eq_ok {A : RealArith R} {b : Nat} {s : State R} {k : List (Value R)} {m : Memory R}
    (h : sqrtBody A b s = .ok (k, m)) :
    ∃ (a base : Int) (i j : Nat), s.stack = .int a :: .int base :: k ∧ index s.params (.int a : Value R) 0 = .ok i ∧
      (s.mem.read i).isNegativeBy A.isNegative = false ∧ index s.params (.int base : Value R) b = .ok j ∧
      m = s.mem.write j (.real (A.sqrtFn (s.mem.read i))) := by
  unfold sqrtBody at h
  rcases hs : s.stack with _ | ⟨a, below⟩
  · simp [hs] at h
  · rcases hi : index s.params a 0 with r | i
    · simp [hs, hi] at h
    · obtain ⟨na, rfl, -, -⟩ := index_eq_ok hi
      rcases below with _ | ⟨base, rest⟩
      · simp [hs, hi] at h
      · rcases hneg : (s.mem.read i).isNegativeBy A.isNegative with _ | _
        · rcases hj : index s.params base b with r | j
          · simp [hs, hi, hneg, hj] at h
          · obtain ⟨nb, rfl, -, -⟩ := index_eq_ok hj
            simp only [hs, pop_cons, bind_ok, hi, hneg, hj, pure, Except.pure, Except.ok.injEq, Prod.mk.injEq,
              Bool.false_eq_true, if_false] at h
            obtain ⟨rfl, rfl⟩ := h
            exact ⟨na, nb, i, j, rfl, hi, hneg, hj, rfl⟩
        · simp [hs, hi, hneg] at h

/-- LOAD_CONST raises `StackOverflow` alone, on a full bounded stack. -/
theorem loadConstBody_eq_error {b : Nat} {s : State R} {r : Raised R} :
    loadConstBody b s = .error r ↔ hasRoom s.params s.stack = false ∧ r = .stackOverflow := by
  unfold loadConstBody
  rcases hp : push s.params (.int (b : Int)) s.stack with q | new
  · obtain ⟨hr, rfl⟩ := push_eq_error.1 hp
    simp [hr, eq_comm]
  · obtain ⟨hr, -⟩ := push_eq_ok.1 hp
    simp [hr, pure, Except.pure]

/-- What `index` raises: the type fault of a real, the bound fault of an integer outside. -/
theorem index_eq_error {p : Params} {v : Value R} {off : Nat} {r : Raised R} (h : index p v off = .error r) :
    (∃ q, v = .real q ∧ r = .addressNotInteger v) ∨
    (∃ n : Int, v = .int n ∧ ¬ (0 ≤ n + (off : Int) ∧ n + (off : Int) < (p.memSize : Int)) ∧
      r = .addressOutOfBounds (n + (off : Int))) := by
  cases v with
  | real q => exact .inl ⟨q, rfl, by simp at h; exact h.symm⟩
  | int n =>
    by_cases hin : 0 ≤ n + (off : Int) ∧ n + (off : Int) < (p.memSize : Int)
    · rw [index_int_inside hin.1 hin.2] at h
      cases h
    · rw [index_int_outside hin] at h
      exact .inr ⟨n, rfl, hin, (Except.error.inj h).symm⟩

/-- What READ_MEM raises: underflow, the index's fault, or (only over a stack beyond its capacity) overflow. -/
theorem readMemBody_eq_error {b : Nat} {s : State R} {r : Raised R} (h : readMemBody b s = .error r) :
    (s.stack = [] ∧ r = .stackUnderflow) ∨
    (∃ a rest, s.stack = a :: rest ∧ index s.params a b = .error r) ∨
    (∃ a rest, s.stack = a :: rest ∧ hasRoom s.params rest = false ∧ r = .stackOverflow) := by
  unfold readMemBody at h
  rcases hs : s.stack with _ | ⟨a, rest⟩
  · exact .inl ⟨rfl, by simp [hs] at h; exact h.symm⟩
  · rcases hi : index s.params a b with q | i
    · simp only [hs, pop_cons, bind_ok, hi, bind_error, Except.error.injEq] at h
      exact .inr (.inl ⟨a, rest, rfl, h ▸ hi⟩)
    · rcases hp : push s.params (s.mem.read i) rest with q | new
      · simp only [hs, pop_cons, bind_ok, hi, hp, bind_error, Except.error.injEq] at h
        obtain ⟨hr, rfl⟩ := push_eq_error.1 hp
        exact .inr (.inr ⟨a, rest, rfl, hr, h.symm⟩)
      · simp [hs, hi, hp, pure, Except.pure] at h

/-- What WRITE_MEM raises: underflow of either pop, or the index's fault. -/
theorem writeMemBody_eq_error {s : State R} {r : Raised R} (h : writeMemBody s = .error r) :
    (s.stack.length < 2 ∧ r = .stackUnderflow) ∨
    (∃ v addr rest, s.stack = v :: addr :: rest ∧ index s.params addr 0 = .error r) := by
  unfold writeMemBody at h
  rcases hs : s.stack with _ | ⟨v, _ | ⟨addr, rest⟩⟩
  · exact .inl ⟨by simp, by simp [hs] at h; exact h.symm⟩
  · exact .inl ⟨by simp, by simp [hs] at h; exact h.symm⟩
  · rcases hi : index s.params addr 0 with q | i
    · simp only [hs, pop_cons, bind_ok, hi, bind_error, Except.error.injEq] at h
      exact .inr ⟨v, addr, rest, rfl, h ▸ hi⟩
    · simp [hs, hi, pure, Except.pure] at h

/-- What SQRT raises: underflow of either pop, a fault of the source index, the domain fault of a negative source, or
a fault of the destination index. -/
theorem sqrtBody_eq_error {A : RealArith R} {b : Nat} {s : State R} {r : Raised R}
    (h : sqrtBody A b s = .error r) :
    (s.stack.length < 2 ∧ r = .stackUnderflow) ∨
    (∃ a below, s.stack = a :: below ∧ index s.params a 0 = .error r) ∨
    (∃ a base rest i, s.stack = a :: base :: rest ∧ index s.params a 0 = .ok i ∧
      (((s.mem.read i).isNegativeBy A.isNegative = true ∧ r = .sqrtDomain (s.mem.read i)) ∨
       ((s.mem.read i).isNegativeBy A.isNegative = false ∧ index s.params base b = .error r))) := by
  unfold sqrtBody at h
  rcases hs : s.stack with _ | ⟨a, below⟩
  · exact .inl ⟨by simp, by simp [hs] at h; exact h.symm⟩
  · rcases hi : index s.params a 0 with q | i
    · simp only [hs, pop_cons, bind_ok, hi, bind_error, Except.error.injEq] at h
      exact .inr (.inl ⟨a, below, rfl, h ▸ hi⟩)
    · rcases below with _ | ⟨base, rest⟩
      · exact .inl ⟨by simp, by simp [hs, hi] at h; exact h.symm⟩
      · refine .inr (.inr ⟨a, base, rest, i, rfl, hi, ?_⟩)
        rcases hneg : (s.mem.read i).isNegativeBy A.isNegative with _ | _
        · rcases hj : index s.params base b with q | j
          · simp only [hs, pop_cons, bind_ok, hi, hneg, hj, bind_error, Bool.false_eq_true, if_false,
              Except.error.injEq, pure, Except.pure] at h
            exact .inr ⟨rfl, h ▸ rfl⟩
          · simp [hs, hi, hneg, hj, pure, Except.pure] at h
        · simp only [hs, pop_cons, bind_ok, hi, hneg, bind_error, if_true, Except.error.injEq] at h
          exact .inl ⟨rfl, h.symm⟩

/-- Every instruction of the engine over any `REAL` and `SQRT_FN` completes with its body's stack and memory, or enters
the fault its body raised. -/
theorem execWith_cases {A : RealArith R} {i : Instr} {s t : State R} (h : execWith A i s = .next t) :
    (∃ stack mem, bodyWith A i s = .ok (stack, mem) ∧ t = s.complete stack mem) ∨
      (∃ r, bodyWith A i s = .error r ∧ t = takeFault s r) := settle_eq_next.1 h

/-- `exec` is the engine at the defaults, instruction by instruction. -/
theorem exec_eq_execWith (i : Instr) (s : State) : exec i s = execWith RealArith.default i s := by
  cases i <;> rfl

/-- An instruction completes with its body's stack and memory, or enters the fault its body raised. -/
theorem exec_cases {i : Instr} {s t : State} (h : exec i s = .next t) :
    (∃ stack mem, bodyWith RealArith.default i s = .ok (stack, mem) ∧ t = s.complete stack mem) ∨
      (∃ r, bodyWith RealArith.default i s = .error r ∧ t = takeFault s r) :=
  execWith_cases (exec_eq_execWith i s ▸ h)

end Sys2Proof.Machine
end

