-- ==== Sys2Proof/Laws/Decode.lean ====
section
/-! SUPPORT. What the decoder can answer, and what a fetch reads. -/

namespace Sys2Proof.Machine

/-- The decoder answers an instruction for exactly the four opcode bytes, with the operand of its format. -/
theorem decode_eq_instr {bytes : List Byte} {i : Instr} (h : decode bytes = .instr i) :
    ∃ b0 b1 b2 b3 b4 b5 : Byte, bytes = [b0, b1, b2, b3, b4, b5] ∧
      ((b0 = 0x5A#8 ∧ i = .loadConst (beU16 b1 b2)) ∨ (b0 = 0x01#8 ∧ i = .readMem b1.toNat) ∨
        (b0 = 0x3E#8 ∧ i = .writeMem) ∨ (b0 = 0x89#8 ∧ i = .sqrt b1.toNat)) := by
  match bytes, h with
  | [b0, b1, b2, b3, b4, b5], h =>
    refine ⟨b0, b1, b2, b3, b4, b5, rfl, ?_⟩
    simp only [decode, decodeRecord] at h
    split at h
    · exact .inl ⟨‹_›, (Decoded.instr.inj h).symm⟩
    · split at h
      · exact .inr (.inl ⟨‹_›, (Decoded.instr.inj h).symm⟩)
      · split at h
        · exact .inr (.inr (.inl ⟨‹_›, (Decoded.instr.inj h).symm⟩))
        · split at h
          · exact .inr (.inr (.inr ⟨‹_›, (Decoded.instr.inj h).symm⟩))
          · cases h

/-- Two bytes make a number of 16 bits. -/
theorem beU16_le (hi lo : Byte) : beU16 hi lo ≤ 65535 := by
  have h1 : hi.toNat < 256 := hi.isLt
  have h2 : lo.toNat < 256 := lo.isLt
  unfold beU16
  omega

/-- What the decoder answers is well-formed. -/
theorem decode_wellFormed {bytes : List Byte} {i : Instr} (h : decode bytes = .instr i) :
    i.wellFormed = true := by
  obtain ⟨b0, b1, b2, b3, b4, b5, -, h⟩ := decode_eq_instr h
  have h1 : b1.toNat < 256 := b1.isLt
  rcases h with ⟨-, rfl⟩ | ⟨-, rfl⟩ | ⟨-, rfl⟩ | ⟨-, rfl⟩
  · simpa [Instr.wellFormed] using beU16_le b1 b2
  · simp only [Instr.wellFormed, decide_eq_true_eq]; omega
  · rfl
  · simp only [Instr.wellFormed, decide_eq_true_eq]; omega

/-- The decoder refuses by name what is not six bytes, and only that. -/
theorem decode_notARecord_iff {bytes : List Byte} : decode bytes = .notARecord ↔ bytes.length ≠ 6 := by
  constructor
  · intro h hlen
    match bytes, hlen with
    | [b0, b1, b2, b3, b4, b5], _ =>
      simp only [decode, decodeRecord] at h
      repeat' split at h
      all_goals cases h
  · intro h
    match bytes with
    | [] | [_] | [_, _] | [_, _, _] | [_, _, _, _] | [_, _, _, _, _] => rfl
    | [_, _, _, _, _, _] => simp at h
    | _ :: _ :: _ :: _ :: _ :: _ :: _ :: _ => rfl

/-- A fetch reads six bytes exactly where six are left. -/
theorem fetchRecord_length {prog : List Byte} {pc : Nat} :
    (fetchRecord prog pc).length = 6 ↔ pc + 6 ≤ prog.length := by
  simp only [fetchRecord, List.length_take, List.length_drop]
  omega

/-- Inside a program of whole records, at a record boundary, six bytes are left (R53). -/
theorem fetchRecord_whole {prog : List Byte} {pc : Nat} (hp : prog.length % 6 = 0) (hpc : pc % 6 = 0)
    (h : pc < prog.length) : (fetchRecord prog pc).length = 6 := by
  rw [fetchRecord_length]
  omega

/-- The fetch of a record just placed reads it. -/
theorem fetchRecord_placeRecord (old : List Byte) (pc : Nat) {new : List Byte} (h : new.length = 6) :
    fetchRecord (placeRecord old pc new) pc = new := by
  have hlen : ((old ++ List.replicate (pc - old.length) 0#8).take pc).length = pc := by
    simp only [List.length_take, List.length_append, List.length_replicate]
    omega
  unfold fetchRecord placeRecord
  rw [List.append_assoc, List.drop_left' hlen, List.take_left' h]

end Sys2Proof.Machine
end

