-- ==== Sys2Proof/Laws/PerInstr.lean ====
section
/-! SUPPORT. Statements made instruction by instruction, one lemma per constructor of `Instr`. -/

namespace Sys2Proof.Laws

/-- The encoding of an instruction is six bytes, the first its opcode (R70, R71, R78). -/
def EncodesOneRecord.Statement (i : Instr) : Prop :=
  (encode i).length = 6 ∧ (encode i).head? = some i.opcode

theorem EncodesOneRecord.loadConst (b : Nat) : EncodesOneRecord.Statement (.loadConst b) := ⟨rfl, rfl⟩
theorem EncodesOneRecord.readMem (b : Nat) : EncodesOneRecord.Statement (.readMem b) := ⟨rfl, rfl⟩
theorem EncodesOneRecord.writeMem : EncodesOneRecord.Statement .writeMem := ⟨rfl, rfl⟩
theorem EncodesOneRecord.sqrt (b : Nat) : EncodesOneRecord.Statement (.sqrt b) := ⟨rfl, rfl⟩

end Sys2Proof.Laws
end

