-- ==== Sys2Proof/Laws/Real.lean ====
section
/-! SUPPORT. The integer square root and the rounding of `SQRT_FN`. -/

namespace Sys2Proof.Machine

theorem isqrtFrom_spec (n k r : Nat) (hlow : r * r ≤ n) (hhigh : n < (r + 2 ^ k) * (r + 2 ^ k)) :
    isqrtFrom n k r * isqrtFrom n k r ≤ n ∧ n < (isqrtFrom n k r + 1) * (isqrtFrom n k r + 1) := by
  induction k generalizing r with
  | zero => exact ⟨hlow, by simpa [isqrtFrom] using hhigh⟩
  | succ k ih =>
    rw [isqrtFrom]
    split
    · rename_i h
      exact ih _ h (by rwa [show r + 2 ^ k + 2 ^ k = r + 2 ^ (k + 1) by omega])
    · exact ih _ hlow (by omega)

/-- `isqrt n` is the largest number whose square is at most `n`. -/
theorem isqrt_spec (n : Nat) : isqrt n * isqrt n ≤ n ∧ n < (isqrt n + 1) * (isqrt n + 1) := by
  apply isqrtFrom_spec n _ 0 (by simp)
  have h1 : n < 2 ^ (n.log2 + 1) := Nat.lt_log2_self
  have h2 : 2 ^ (n.log2 + 1) ≤ 2 ^ (n.log2 / 2 + 1 + (n.log2 / 2 + 1)) :=
    Nat.pow_le_pow_right (by omega) (by omega)
  rw [Nat.zero_add, ← pow_add]
  exact lt_of_lt_of_le h1 h2

/-- `isqrt` is monotone in what it bounds from below. -/
theorem le_isqrt {q n : Nat} (h : q * q ≤ n) : q ≤ isqrt n := by
  by_contra hlt
  have h1 := (isqrt_spec n).2
  have h2 : (isqrt n + 1) * (isqrt n + 1) ≤ q * q := Nat.mul_le_mul (by omega) (by omega)
  omega

/-- A bound on what `isqrt` gives. -/
theorem isqrt_lt {q n : Nat} (h : n < q * q) : isqrt n < q := by
  by_contra hle
  have h1 := (isqrt_spec n).1
  have h2 : q * q ≤ isqrt n * isqrt n := Nat.mul_le_mul (by omega) (by omega)
  omega

/-- The root of a square is exact. -/
theorem isqrt_mul_self (q : Nat) : isqrt (q * q) = q := by
  have h1 := le_isqrt (le_refl (q * q))
  have h2 := isqrt_lt (q := q + 1) (n := q * q) (by nlinarith)
  omega

/-- The significand `roundToReal` keeps: `q` cut to 53 bits and rounded to nearest, ties to even. -/
def roundedSignificand (q : Nat) (sticky : Bool) : Nat :=
  let cut := q.log2 - 52
  let kept := q / 2 ^ cut
  let rest := q % 2 ^ cut
  let half := 2 ^ (cut - 1)
  if decide (half < rest) || (rest == half && (sticky || kept % 2 == 1)) then kept + 1 else kept

/-- `roundToReal` packs the rounded significand under its exponent. -/
theorem roundToReal_eq (q : Nat) (sticky : Bool) (e : Int) :
    roundToReal q sticky e = BitVec.ofNat 64
      (min (((e + (q.log2 - 52 : Nat) + 1075).toNat - 1) * 2 ^ 52 + roundedSignificand q sticky)
        (2047 * 2 ^ 52)) := rfl

/-- The rounded significand has 53 bits or is `2 ^ 53`, and is within half a unit of what it rounds: at most half a
unit above `q`, and at most half a unit below `q`, strictly less where a fraction was cut off before. -/
theorem roundedSignificand_spec {q : Nat} (hq : 2 ^ 53 ≤ q) (sticky : Bool) :
    2 ^ 52 ≤ roundedSignificand q sticky ∧ roundedSignificand q sticky ≤ 2 ^ 53 ∧
    roundedSignificand q sticky * 2 ^ (q.log2 - 52) ≤ q + 2 ^ (q.log2 - 53) ∧
    (q < roundedSignificand q sticky * 2 ^ (q.log2 - 52) + 2 ^ (q.log2 - 53) ∨
      (q = roundedSignificand q sticky * 2 ^ (q.log2 - 52) + 2 ^ (q.log2 - 53) ∧ sticky = false)) := by
  have hlog : 53 ≤ q.log2 := (Nat.le_log2 (by omega)).2 hq
  obtain ⟨c, hc⟩ : ∃ c, q.log2 = c + 53 := ⟨q.log2 - 53, by omega⟩
  have hlow : 2 ^ (c + 53) ≤ q := hc ▸ Nat.log2_self_le (by omega)
  have hhigh : q < 2 ^ (c + 53 + 1) := hc ▸ Nat.lt_log2_self
  unfold roundedSignificand
  simp only [hc, show c + 53 - 52 = c + 1 by omega, show c + 53 - 53 = c by omega, show c + 1 - 1 = c by omega]
  have hpow : 2 ^ (c + 1) = 2 * 2 ^ c := by ring
  have hsplit : q = q / 2 ^ (c + 1) * 2 ^ (c + 1) + q % 2 ^ (c + 1) := (Nat.div_add_mod' _ _).symm
  have hrest : q % 2 ^ (c + 1) < 2 ^ (c + 1) := Nat.mod_lt _ (by positivity)
  have hk1 : 2 ^ 52 ≤ q / 2 ^ (c + 1) := by
    rw [Nat.le_div_iff_mul_le (by positivity), ← pow_add]
    exact le_trans (le_of_eq (by congr 1; omega)) hlow
  have hk2 : q / 2 ^ (c + 1) < 2 ^ 53 := by
    rw [Nat.div_lt_iff_lt_mul (by positivity), ← pow_add]
    exact lt_of_lt_of_le hhigh (le_of_eq (by congr 1; omega))
  generalize q / 2 ^ (c + 1) = kept at *
  generalize q % 2 ^ (c + 1) = rest at *
  clear hlow hhigh hc hq hlog
  generalize 2 ^ (c + 1) = unit at *
  generalize 2 ^ c = half at *
  subst hsplit
  split
  · rename_i h
    rw [Nat.add_mul, Nat.one_mul]
    have : half ≤ rest := by
      simp only [Bool.or_eq_true, decide_eq_true_eq, Bool.and_eq_true, beq_iff_eq] at h
      rcases h with h | h <;> omega
    refine ⟨by omega, by omega, by omega, by omega⟩
  · rename_i h
    simp only [Bool.or_eq_true, decide_eq_true_eq, Bool.and_eq_true, beq_iff_eq] at h
    refine ⟨by omega, by omega, by omega, ?_⟩
    by_cases hr : rest = half
    · refine .inr ⟨by omega, ?_⟩
      cases sticky
      · rfl
      · exact absurd (.inr ⟨hr, .inl rfl⟩) h
    · exact .inl (by omega)

/-- The datum `roundToReal` packs from a biased exponent and a rounded significand. -/
def packReal (biased significand : Nat) : Binary64 :=
  BitVec.ofNat 64 (min ((biased - 1) * 2 ^ 52 + significand) (2047 * 2 ^ 52))

theorem packReal_toNat {b M : Nat} (h1 : 1 ≤ b) (h2 : b ≤ 2045) (hM : M ≤ 2 ^ 53) :
    (packReal b M).toNat = (b - 1) * 2 ^ 52 + M := by
  simp only [packReal, BitVec.toNat_ofNat]
  omega

/-- What a packed datum denotes: `M * 2 ^ (b - 1075)`, where `M` has 53 bits or is `2 ^ 53`. -/
theorem packReal_num {b M : Nat} (h1 : 1 ≤ b) (h2 : b ≤ 2045) (hlow : 2 ^ 52 ≤ M) (hM : M ≤ 2 ^ 53) :
    realNum (packReal b M) = some ((M : ℚ) * (2 : ℚ) ^ ((b : Int) - 1075)) := by
  have ht := packReal_toNat h1 h2 hM
  have hsign : realSign (packReal b M) = false := by
    simp only [realSign, BitVec.msb_eq_decide, decide_eq_false_iff_not]
    omega
  rcases Nat.lt_or_ge M (2 ^ 53) with hlt | hge
  · have he : realExponent (packReal b M) = b := by unfold realExponent; rw [ht]; omega
    have hf : realFraction (packReal b M) = M - 2 ^ 52 := by unfold realFraction; rw [ht]; omega
    have hs : realSignificand (packReal b M) = M := by
      simp only [realSignificand, he, hf]; rw [if_neg (by omega)]; omega
    have hsc : realScale (packReal b M) = (b : Int) - 1075 := by
      simp only [realScale, he]
      rw [if_neg (by omega)]
    have hfin : realExponent (packReal b M) ≠ 2047 := by omega
    simp [realNum, hfin, hs, hsc, hsign]
  · have hMe : M = 2 ^ 53 := by omega
    have he : realExponent (packReal b M) = b + 1 := by unfold realExponent; rw [ht]; omega
    have hf : realFraction (packReal b M) = 0 := by unfold realFraction; rw [ht]; omega
    have hs : realSignificand (packReal b M) = 2 ^ 52 := by
      simp only [realSignificand, he, hf]
      rw [if_neg (by omega), Nat.add_zero]
    have hsc : realScale (packReal b M) = ((b : Int) - 1075) + 1 := by
      simp only [realScale, he]
      rw [if_neg (by omega)]
      push_cast
      ring
    have hfin : realExponent (packReal b M) ≠ 2047 := by omega
    simp only [realNum, if_neg hfin, hs, hsc, hsign, Bool.false_eq_true, if_false]
    rw [zpow_add₀ (by norm_num), hMe]
    push_cast
    congr 1
    ring

/-- The fraction of a packed datum is even exactly where the significand is. -/
theorem packReal_fraction_mod {b M : Nat} (h1 : 1 ≤ b) (h2 : b ≤ 2045) (hM : M ≤ 2 ^ 53) :
    realFraction (packReal b M) % 2 = M % 2 := by
  unfold realFraction
  rw [packReal_toNat h1 h2 hM]
  omega

/-- Every finite datum is a whole multiple of `2 ^ g`, or smaller in magnitude than `2 ^ (52 + g)`. -/
theorem realNum_grid {r : Binary64} {y : ℚ} (h : realNum r = some y) (g : Int) :
    (∃ k : Int, y = k * (2 : ℚ) ^ g) ∨ y < 2 ^ 52 * (2 : ℚ) ^ g := by
  unfold realNum at h
  split at h
  · cases h
  · rename_i hne
    have hy := (Option.some.inj h).symm
    have hS : realSignificand r < 2 ^ 53 := by
      unfold realSignificand realFraction
      split <;> omega
    rcases le_or_gt g (realScale r) with hg | hg
    · left
      obtain ⟨n, hn⟩ := Int.eq_ofNat_of_zero_le (show 0 ≤ realScale r - g by omega)
      refine ⟨(if realSign r then -1 else 1) * realSignificand r * 2 ^ n, ?_⟩
      rw [hy, show realScale r = n + g by omega, zpow_add₀ (by norm_num)]
      push_cast
      rw [zpow_natCast]
      split <;> simp <;> ring
    · right
      have hpos : (0 : ℚ) < (2 : ℚ) ^ realScale r := by positivity
      have hle : y ≤ (realSignificand r : ℚ) * (2 : ℚ) ^ realScale r := by
        rw [hy]
        have : (0 : ℚ) ≤ (realSignificand r : ℚ) * (2 : ℚ) ^ realScale r := by positivity
        split
        · nlinarith
        · simp
      have h2 : (2 : ℚ) ^ (realScale r + 1) ≤ (2 : ℚ) ^ g := zpow_le_zpow_right₀ (by norm_num) (by omega)
      rw [zpow_add₀ (by norm_num), zpow_one] at h2
      have hSq : (realSignificand r : ℚ) < 2 ^ 53 := by exact_mod_cast hS
      nlinarith

/-- Where the rounded significand is exactly half a unit away, it is even. -/
theorem roundedSignificand_tie {q : Nat} (hq : 2 ^ 53 ≤ q)
    (h : roundedSignificand q false * 2 ^ (q.log2 - 52) = q + 2 ^ (q.log2 - 53) ∨
      q = roundedSignificand q false * 2 ^ (q.log2 - 52) + 2 ^ (q.log2 - 53)) :
    roundedSignificand q false % 2 = 0 := by
  have hlog : 53 ≤ q.log2 := (Nat.le_log2 (by omega)).2 hq
  obtain ⟨c, hc⟩ : ∃ c, q.log2 = c + 53 := ⟨q.log2 - 53, by omega⟩
  unfold roundedSignificand at *
  simp only [hc, show c + 53 - 52 = c + 1 by omega, show c + 53 - 53 = c by omega, show c + 1 - 1 = c by omega] at *
  have hpow : 2 ^ (c + 1) = 2 * 2 ^ c := by ring
  have hsplit : q = q / 2 ^ (c + 1) * 2 ^ (c + 1) + q % 2 ^ (c + 1) := (Nat.div_add_mod' _ _).symm
  have hrest : q % 2 ^ (c + 1) < 2 ^ (c + 1) := Nat.mod_lt _ (by positivity)
  have hpos : 0 < 2 ^ c := by positivity
  generalize q / 2 ^ (c + 1) = kept at *
  generalize q % 2 ^ (c + 1) = rest at *
  clear hc hq hlog
  generalize 2 ^ (c + 1) = unit at *
  generalize 2 ^ c = half at *
  subst hsplit
  simp only [Bool.false_or, Bool.or_eq_true, decide_eq_true_eq, Bool.and_eq_true, beq_iff_eq] at *
  split at h
  · rename_i hup
    rw [if_pos hup]
    rw [Nat.add_mul, Nat.one_mul] at h
    rcases h with h | h
    · rcases hup with hup | hup <;> omega
    · omega
  · rename_i hup
    rw [if_neg hup]
    rcases h with h | h
    · omega
    · have : rest = half := by omega
      have : ¬ kept % 2 = 1 := fun q => hup (.inr ⟨this, q⟩)
      omega

/-- What `roundedSqrt` gives for a positive number `m * 2 ^ e` in the range of the data: a significand `M` of 53 bits
(or `2 ^ 53`) over a biased exponent `b` in range, within half a unit of the exact root, and even where it is exactly
half a unit away. -/
theorem roundedSqrt_spec {m : Nat} {e : Int} (hm : 0 < m) (he : -1074 ≤ e)
    (hx : (m : ℝ) * (2 : ℝ) ^ e < 2 ^ 1024) :
    ∃ b M : Nat, 1 ≤ b ∧ b ≤ 2045 ∧ 2 ^ 52 ≤ M ∧ M ≤ 2 ^ 53 ∧ roundedSqrt m e = packReal b M ∧
      2 ^ 52 * (2 : ℝ) ^ ((b : Int) - 1075) ≤ Real.sqrt ((m : ℝ) * (2 : ℝ) ^ e) ∧
      |(M : ℝ) * (2 : ℝ) ^ ((b : Int) - 1075) - Real.sqrt ((m : ℝ) * (2 : ℝ) ^ e)| ≤
        (2 : ℝ) ^ ((b : Int) - 1075) / 2 ∧
      (|(M : ℝ) * (2 : ℝ) ^ ((b : Int) - 1075) - Real.sqrt ((m : ℝ) * (2 : ℝ) ^ e)| =
        (2 : ℝ) ^ ((b : Int) - 1075) / 2 → M % 2 = 0) := by
  obtain ⟨E, hE⟩ : ∃ E : Int, e - ((108 + (e % 2).toNat : Nat) : Int) = 2 * E :=
    ⟨(e - ((108 + (e % 2).toNat : Nat) : Int)) / 2, by omega⟩
  obtain ⟨N, hN⟩ : ∃ N : Nat, N = m * 2 ^ (108 + (e % 2).toNat) := ⟨_, rfl⟩
  obtain ⟨q, hq⟩ : ∃ q : Nat, q = isqrt N := ⟨_, rfl⟩
  have hdef : roundedSqrt m e = roundToReal q (q * q != N) E := by
    simp only [roundedSqrt, ← hN, ← hq]
    rw [hE]
    simp
  have hNlow : 2 ^ 54 * 2 ^ 54 ≤ N := by
    rw [hN, ← pow_add]
    calc 2 ^ (54 + 54) ≤ 2 ^ (108 + (e % 2).toNat) := Nat.pow_le_pow_right (by omega) (by omega)
      _ ≤ m * 2 ^ (108 + (e % 2).toNat) := Nat.le_mul_of_pos_left _ hm
  have hqlow : 2 ^ 54 ≤ q := hq ▸ le_isqrt hNlow
  obtain ⟨hsq1, hsq2⟩ := hq ▸ isqrt_spec N
  have hlog : 54 ≤ q.log2 := (Nat.le_log2 (by omega)).2 hqlow
  obtain ⟨c, hc⟩ : ∃ c, q.log2 = c + 53 := ⟨q.log2 - 53, by omega⟩
  have hpack := roundToReal_eq q (q * q != N) E
  obtain ⟨M, hM⟩ : ∃ M, M = roundedSignificand q (q * q != N) := ⟨_, rfl⟩
  obtain ⟨hs1, hs2, hs3, hs4⟩ := roundedSignificand_spec (q := q) (by omega) (q * q != N)
  rw [← hM] at hs1 hs2 hs3 hs4 hpack
  have htie := roundedSignificand_tie (q := q) (by omega)
  rw [hc, show c + 53 - 52 = c + 1 by omega, show c + 53 - 53 = c by omega] at hs3 hs4 htie
  -- the real root
  obtain ⟨R, hR⟩ : ∃ R : ℝ, R = Real.sqrt (N : ℝ) := ⟨_, rfl⟩
  have hRR : R * R = N := by rw [hR]; exact Real.mul_self_sqrt (by positivity)
  have hR0 : 0 ≤ R := hR ▸ Real.sqrt_nonneg _
  have hqR : (q : ℝ) ≤ R := by
    rw [hR]; apply Real.le_sqrt_of_sq_le; rw [sq]; exact_mod_cast hsq1
  have hRq : R < q + 1 := by
    rw [hR, Real.sqrt_lt' (by positivity), sq]; exact_mod_cast hsq2
  have hX : Real.sqrt ((m : ℝ) * (2 : ℝ) ^ e) = R * (2 : ℝ) ^ E := by
    have : (m : ℝ) * (2 : ℝ) ^ e = (N : ℝ) * ((2 : ℝ) ^ E) ^ 2 := by
      rw [hN]
      push_cast
      rw [mul_assoc, ← zpow_natCast (2 : ℝ) (108 + (e % 2).toNat), sq, ← zpow_add₀ (by norm_num), ← zpow_add₀ (by norm_num)]
      congr 2
      push_cast
      push_cast at hE
      omega
    rw [this, Real.sqrt_mul (by positivity), Real.sqrt_sq (by positivity), hR]
  have hEpos : (0 : ℝ) < (2 : ℝ) ^ E := by positivity
  have hhalf : (0 : ℝ) < (2 : ℝ) ^ c := by positivity
  have hqc : 2 ^ (c + 53) ≤ q := hc ▸ Nat.log2_self_le (by omega)
  have hqcR : (2 : ℝ) ^ 53 * 2 ^ c ≤ R := by
    refine le_trans ?_ hqR
    rw [← pow_add, Nat.add_comm]
    exact_mod_cast hqc
  -- the exponent is in range
  have hup : E + c + 53 < 512 := by
    have h1 : (2 : ℝ) ^ (E + c + 53) ≤ R * (2 : ℝ) ^ E := by
      rw [show E + c + 53 = ((c + 53 : Nat) : Int) + E by push_cast; ring, zpow_add₀ (by norm_num), zpow_natCast, pow_add]
      nlinarith
    have h2 : R * (2 : ℝ) ^ E < (2 : ℝ) ^ (512 : Int) := by
      rw [← hX, Real.sqrt_lt' (by positivity)]
      refine lt_of_lt_of_eq hx ?_
      rw [sq, ← zpow_add₀ (by norm_num)]
      norm_num
    exact (zpow_lt_zpow_iff_right₀ (by norm_num : (1 : ℝ) < 2)).1 (lt_of_le_of_lt h1 h2)
  obtain ⟨b, hb⟩ : ∃ b : Nat, (b : Int) = E + (c + 1 : Nat) + 1075 :=
    ⟨(E + (c + 1 : Nat) + 1075).toNat, by omega⟩
  refine ⟨b, M, by omega, by omega, hs1, hs2, ?_, ?_⟩
  · rw [hdef, hpack, hc, show c + 53 - 52 = c + 1 by omega, ← hb]
    rfl
  rw [hX, show (b : Int) - 1075 = ((c + 1 : Nat) : Int) + E by omega, zpow_add₀ (by norm_num), zpow_natCast, pow_succ (2 : ℝ) c]
  have hs3R : (M : ℝ) * (2 ^ c * 2) ≤ q + 2 ^ c := by
    rw [← pow_succ]; exact_mod_cast hs3
  have hs4R : R ≤ (M : ℝ) * (2 ^ c * 2) + 2 ^ c := by
    rcases hs4 with h | ⟨h, hst⟩
    · have : (q : ℝ) + 1 ≤ (M : ℝ) * (2 ^ c * 2) + 2 ^ c := by
        rw [← pow_succ]; exact_mod_cast h
      linarith
    · have hqq : q * q = N := by simpa using hst
      have hRe : R = q := by
        rw [hR, ← hqq]; push_cast; exact Real.sqrt_mul_self (by positivity)
      rw [hRe, ← pow_succ]; exact_mod_cast le_of_eq h
  have hval : (M : ℝ) * ((2 : ℝ) ^ c * 2 * (2 : ℝ) ^ E) - R * (2 : ℝ) ^ E =
      ((M : ℝ) * (2 ^ c * 2) - R) * (2 : ℝ) ^ E := by ring
  refine ⟨by nlinarith, ?_, ?_⟩
  · rw [hval, abs_mul, abs_of_pos hEpos]
    have : |(M : ℝ) * (2 ^ c * 2) - R| ≤ 2 ^ c := abs_le.2 ⟨by linarith, by linarith⟩
    nlinarith
  · intro h
    rw [hval, abs_mul, abs_of_pos hEpos] at h
    have habs : |(M : ℝ) * (2 ^ c * 2) - R| = 2 ^ c := by
      have : (|(M : ℝ) * (2 ^ c * 2) - R| - 2 ^ c) * (2 : ℝ) ^ E = 0 := by linarith
      rcases mul_eq_zero.1 this with h | h
      · linarith
      · linarith
    obtain ⟨k, hk⟩ : ∃ k : Int, R = k := by
      rcases (abs_eq hhalf.le).1 habs with h | h
      · exact ⟨M * (2 ^ c * 2) - 2 ^ c, by push_cast; linarith⟩
      · exact ⟨M * (2 ^ c * 2) + 2 ^ c, by push_cast; linarith⟩
    have hkq : k = q := by
      rw [hk] at hqR hRq
      have h1 : (q : Int) ≤ k := by exact_mod_cast hqR
      have h2 : k < (q : Int) + 1 := by exact_mod_cast hRq
      omega
    have hRe : R = q := by rw [hk, hkq]; simp
    have hqq : q * q = N := by rw [hRe] at hRR; exact_mod_cast hRR
    have hst : (q * q != N) = false := by simpa using hqq
    rw [hst] at hM
    rw [hM]
    apply htie
    rw [← hM]
    rcases (abs_eq hhalf.le).1 habs with h | h
    · left
      have : (M : ℝ) * (2 ^ c * 2) = q + 2 ^ c := by rw [hRe] at h; linarith
      rw [← pow_succ] at this; exact_mod_cast this
    · right
      have : (q : ℝ) = M * (2 ^ c * 2) + 2 ^ c := by rw [hRe] at h; linarith
      rw [← pow_succ] at this; exact_mod_cast this

end Sys2Proof.Machine
end

