-- ==== Sys2Proof/Laws/Step.lean ====
section
/-! SUPPORT. What a step can do, said once. -/

namespace Sys2Proof.Machine

variable {R : Type}

/-- A step that answers a next state started while `RUNNING` with a program loaded, and ended the run at the
program's end, ran the decoded instruction, or raised `IllegalOpcode`. -/
theorem stepBy_cases {run : Instr → State R → Answer R} {s t : State R} (h : stepBy run s = .next t) :
    s.status = .running ∧ ∃ prog, s.prog = some prog ∧
      ((prog.length ≤ s.pc ∧ t = s.withStatus .done) ∨
       (s.pc < prog.length ∧ ∃ i, decode (fetchRecord prog s.pc) = .instr i ∧ run i s = .next t) ∨
       (s.pc < prog.length ∧ ∃ op, decode (fetchRecord prog s.pc) = .illegal op ∧
          t = takeFault s .illegalOpcode)) := by
  unfold stepBy at h
  rcases hst : s.status with _ | _ | r
  · refine ⟨rfl, ?_⟩
    simp only [hst, stepRunning] at h
    rcases hp : s.prog with _ | prog
    · simp [hp] at h
    · refine ⟨prog, rfl, ?_⟩
      simp only [hp] at h
      split at h
      · exact .inl ⟨‹_›, (Host.Outcome.next.inj h).symm⟩
      · rename_i hlt
        rcases hd : decode (fetchRecord prog s.pc) with i | op | _
        · rw [hd] at h
          exact .inr (.inl ⟨by omega, i, rfl, h⟩)
        · rw [hd] at h
          exact .inr (.inr ⟨by omega, op, rfl, (Host.Outcome.next.inj h).symm⟩)
        · rw [hd] at h
          cases h
  · simp [hst] at h
  · simp [hst] at h

/-- `stepBy_cases` for the step of this hardware. -/
theorem step_cases {s t : State} (h : step s = .next t) :
    s.status = .running ∧ ∃ prog, s.prog = some prog ∧
      ((prog.length ≤ s.pc ∧ t = s.withStatus .done) ∨
       (s.pc < prog.length ∧ ∃ i, decode (fetchRecord prog s.pc) = .instr i ∧ exec i s = .next t) ∨
       (s.pc < prog.length ∧ ∃ op, decode (fetchRecord prog s.pc) = .illegal op ∧
          t = takeFault s .illegalOpcode)) := stepBy_cases h

/-- The step of this hardware is the engine's at the defaults. -/
theorem step_eq_stepWith (s : State) : step s = stepWith RealArith.default s := by
  unfold step stepWith
  congr 1
  funext i s
  exact exec_eq_execWith i s

/-- Every next state of a step of the engine is one of three: the run ended, an instruction completed, a fault was
entered. -/
theorem stepWith_shape {A : RealArith R} {s t : State R} (h : stepWith A s = .next t) :
    t = s.withStatus .done ∨ (∃ stack mem, t = s.complete stack mem) ∨ (∃ r, t = takeFault s r) := by
  obtain ⟨-, prog, -, h⟩ := stepBy_cases h
  rcases h with ⟨-, rfl⟩ | ⟨-, i, -, hx⟩ | ⟨-, op, -, rfl⟩
  · exact .inl rfl
  · rcases execWith_cases hx with ⟨stack, mem, -, rfl⟩ | ⟨r, -, rfl⟩
    · exact .inr (.inl ⟨stack, mem, rfl⟩)
    · exact .inr (.inr ⟨r, rfl⟩)
  · exact .inr (.inr ⟨_, rfl⟩)

/-- `stepWith_shape` for the step of this hardware. -/
theorem step_shape {s t : State} (h : step s = .next t) :
    t = s.withStatus .done ∨ (∃ stack mem, t = s.complete stack mem) ∨ (∃ r, t = takeFault s r) :=
  stepWith_shape (step_eq_stepWith s ▸ h)

end Sys2Proof.Machine
end

