-- ==== Sys2Proof/Tests/Slice0.lean ====
section
/-! SUPPORT. Tests, with expected values from 95_test_vectors.md or the rule named, and for every statement with
hypotheses a witness that meets them. -/

namespace Sys2Proof.Tests

open Sys2Proof.Machine

/-- A state after reset over a program, a stack (top first) and a memory. -/
def st (prog : List Byte) (stack : List Value) (mem : Memory) : State :=
  { State.reset with prog := some prog, stack := stack, mem := mem }

/-- The same with a stack capacity. -/
def bounded (c : Nat) (s : State) : State := { s with params := { s.params with stackCapacity := some c } }

/-- The answer is a next state with a property. -/
def nextHas (a : Answer) (p : State → Bool) : Bool :=
  match a with
  | .next t => p t
  | .fault _ => false
  | .refused _ => false

/-- A six-byte record from its first three bytes, padding zero. -/
def rec3 (b0 b1 b2 : Nat) : List Byte :=
  [BitVec.ofNat 8 b0, BitVec.ofNat 8 b1, BitVec.ofNat 8 b2, 0#8, 0#8, 0#8]

/-- The binary64 datum of 4.0. -/
def four : Binary64 := 0x4010000000000000#64

/-- The outcome of a host operation's reply. -/
def replyIs {α : Type} [DecidableEq α] (r : Reply α) (a : α) : Bool := decide (r = .ok a)

/-! ### Well-formedness: for each check a term it refuses -/

theorem test_wellFormed_loadConst : (Instr.loadConst 65536).wellFormed = false := by decide
theorem test_wellFormed_readMem : (Instr.readMem 256).wellFormed = false := by decide
theorem test_wellFormed_sqrt : (Instr.sqrt 256).wellFormed = false := by decide
/-- V-PC-3: seven bytes are no program. -/
theorem test_program_length : programWellFormed Params.default (rec3 0x5A 0 1 ++ [0x3E#8]) = false := by decide
theorem test_program_limit :
    programWellFormed { Params.default with progMaxBytes := some 0 } (rec3 0x5A 0 1) = false := by decide
theorem test_params_no_cell : ({ Params.default with memSize := 0 } : Params).wellFormed = false := by decide
theorem test_params_no_stack : ({ Params.default with stackCapacity := some 0 } : Params).wellFormed = false := by
  decide
theorem test_params_limit : ({ Params.default with progMaxBytes := some 7 } : Params).wellFormed = false := by decide

/-! ### Decoding: words written out from R71 -/

/-- V-SRC-1: `90 500` is `5A 01 F4 00 00 00`. -/
theorem test_decode_loadConst :
    decode [0b01011010#8, 0b00000001#8, 0b11110100#8, 0#8, 0#8, 0#8] = .instr (.loadConst 500) := by decide
/-- V-DEC-4: padding is ignored. -/
theorem test_decode_loadConst_padding :
    decode [0x5A#8, 0x00#8, 0x01#8, 0xAA#8, 0xBB#8, 0xCC#8] = .instr (.loadConst 1) := by decide
/-- V-DEC-6. -/
theorem test_decode_readMem :
    decode [0b00000001#8, 0b00000111#8, 0x12#8, 0x34#8, 0x56#8, 0x78#8] = .instr (.readMem 7) := by decide
/-- V-DEC-7. -/
theorem test_decode_writeMem :
    decode [0b00111110#8, 0xFF#8, 0xFF#8, 0xFF#8, 0xFF#8, 0xFF#8] = .instr .writeMem := by decide
/-- V-DEC-8. -/
theorem test_decode_sqrt :
    decode [0b10001001#8, 0b00000010#8, 0#8, 0#8, 0#8, 0#8] = .instr (.sqrt 2) := by decide
/-- V-DEC-10: the neighbours of the four opcodes and the top value are illegal. -/
theorem test_decode_illegal :
    ([0x00, 0x02, 0x3D, 0x3F, 0x59, 0x5B, 0x88, 0x8A, 0xFF].map fun b => decode (rec3 b 0 0)) =
      [0x00#8, 0x02#8, 0x3D#8, 0x3F#8, 0x59#8, 0x5B#8, 0x88#8, 0x8A#8, 0xFF#8].map Decoded.illegal := by decide
theorem test_decode_short : decode [0x5A#8, 0x00#8, 0x01#8] = .notARecord := by decide
/-- R94. -/
theorem test_encode : encode (.loadConst 500) = [0x5A#8, 0x01#8, 0xF4#8, 0#8, 0#8, 0#8] := by decide
/-- The table's match and operand fields: `W[39:24]`, `W[39:32]`. -/
theorem test_tableWord :
    decodeTableWord 48 0x5A01F4000000 = some (.loadConst 500) ∧ decodeTableWord 48 0x01FF00000000 = some (.readMem 255) ∧
      decodeTableWord 48 0x3E0000000000 = some .writeMem ∧ decodeTableWord 48 0x890200000000 = some (.sqrt 2) ∧
      decodeTableWord 48 0x5A = none := by decide
theorem test_fetchWord :
    nextHas (step (State.reset.withFetchWord 48 0x5A01F4000000)) (fun t => t.stack == [.int 500] && t.pc == 6) = true := by
  decide

/-! ### One step of each instruction -/

/-- V-LC-2. -/
theorem test_loadConst : nextHas (step (st (rec3 0x5A 0xFF 0xFF) [] []))
    (fun t => t.stack == [.int 65535] && t.pc == 6) = true := by decide
/-- V-LC-4: the second push onto a stack of capacity 1. -/
theorem test_loadConst_full : nextHas (step (bounded 1 (st (rec3 0x5A 0 2) [.int 1] [])))
    (fun t => t == { bounded 1 (st (rec3 0x5A 0 2) [.int 1] []) with
      status := .fault ⟨.stackOverflow, 0, some 0x5A#8, none, none⟩ }) = true := by decide
/-- V-RM-8: only the top is consumed, the offset is added. -/
theorem test_readMem : nextHas (step (st (rec3 0x01 1 0) [.int 7, .int 3] [(8, .int 5)]))
    (fun t => t.stack == [.int 5, .int 3]) = true := by decide
/-- V-RM-6: the index does not wrap, the stack is restored. -/
theorem test_readMem_outside : nextHas (step (st (rec3 0x01 0xFF 0) [.int 65535] []))
    (fun t => t.status == .fault ⟨.addressOutOfBounds, 0, some 0x01#8, some 65790, none⟩ && t.stack == [.int 65535] &&
      t.pc == 0) = true := by decide
/-- V-WM-7: a real value is stored with its tag; the value is popped first. -/
theorem test_writeMem : nextHas (step (st (rec3 0x3E 0 0) [.real four, .int 2] []))
    (fun t => t.mem == [(2, .real four)] && t.stack == []) = true := by decide
/-- V-WM-5. -/
theorem test_writeMem_outside : nextHas (step (st (rec3 0x3E 0 0) [.int 9, .int 1024] []))
    (fun t => t.status == .fault ⟨.addressOutOfBounds, 0, some 0x3E#8, some 1024, none⟩ && t.mem == [] &&
      t.stack == [.int 9, .int 1024]) = true := by decide
/-- V-SQRT-6, under the default: the root of 2 is `0x3FF6A09E667F3BCD`. -/
theorem test_sqrt : nextHas (step (st (rec3 0x89 0 0) [.int 0, .int 1] [(0, .int 2)]))
    (fun t => t.mem == [(0, .int 2), (1, .real 0x3FF6A09E667F3BCD#64)] && t.stack == []) = true := by decide +kernel
/-- V-SQRT-11: the source index is checked before the second pop. -/
theorem test_sqrt_source_first : nextHas (step (st (rec3 0x89 0 0) [.int 2000] []))
    (fun t => t.status == .fault ⟨.addressOutOfBounds, 0, some 0x89#8, some 2000, none⟩ &&
      t.stack == [.int 2000]) = true := by decide +kernel

/-! ### Square roots, the host, the assembler -/

/-- V-SQRT-7, V-SQRT-8, V-SQRT-5, V-SQRT-2. -/
theorem test_sqrtFn : sqrtFn (.int 65535) = 0x406FFFEFFFFBFFFE#64 ∧ sqrtFn (.int 65025) = realOfNat 255 ∧
    sqrtFn (.real (realOfNat 16)) = four ∧ sqrtFn (.int 0) = 0#64 := by decide +kernel
/-- R171. -/
theorem test_codes : [FaultKind.illegalOpcode, .stackUnderflow, .addressOutOfBounds, .addressNotInteger, .sqrtDomain,
    .stackOverflow].map FaultKind.code = [1, 2, 3, 4, 5, 6] := by decide
/-- V-PC-3: `load` refuses seven bytes. -/
theorem test_load_refuses : hostLoad (rec3 0x5A 0 1 ++ [0x3E#8]) State.reset = (.lengthError, State.reset) := by decide
/-- V-RR-2: the slice 6 to 8 after cell 7 was written. -/
theorem test_readResult : replyIs (hostReadResult 6 8 { st [] [] [(7, .int 42)] with status := .done })
    [(6, .int 0), (7, .int 42), (8, .int 0)] = true := by decide
/-- V-RR-4, V-RR-5, V-RR-6. -/
theorem test_readResult_range : [(0, 1024), (-1, 0), (5, 4)].all (fun c =>
    decide (hostReadResult c.1 c.2 { st [] [] [] with status := .done } = .rangeError)) = true := by decide
/-- V-SRC-3: the program of one LOAD_CONST ends `DONE` with 500 on top; R212 lists the stack bottom to top. -/
theorem test_run : nextHas (hostRun (st (rec3 0x5A 0x01 0xF4) [] []))
    (fun t => replyIs (hostReadState t) (.done, 6, [.int 500])) = true := by decide

/-- The characters of a test's source text. -/
def chars (codes : List Nat) : List Char := codes.map Char.ofNat

/-- V-ASM-14, V-ASM-15: blanks around `90` and `7`; signs. -/
theorem test_line_accepts :
    assembleLine (chars [32, 32, 32, 57, 48, 9, 55, 32, 32]) = .emit (.loadConst 7) ∧
      assembleLine (chars [43, 57, 48, 32, 43, 55]) = .emit (.loadConst 7) := by decide
/-- V-ASM-8 (`62 70000`), V-ASM-10 (`1 256`), V-ASM-13 (blank), V-ASM-16 (`300 1`). -/
theorem test_line_refuses :
    assembleLine (chars [54, 50, 32, 55, 48, 48, 48, 48]) = .skip .wrongArity ∧
      assembleLine (chars [49, 32, 50, 53, 54]) = .fatal .rangeError ∧
      assembleLine (chars [32, 9]) = .fatal .parseError ∧
      assembleLine (chars [51, 48, 48, 32, 49]) = .skip .unrecognizedOpcode := by decide
/-- V-ASM-17: `90 7`, `91`, `62`, the first line ended by CR LF. -/
theorem test_assemble :
    (match assemble (chars [57, 48, 32, 55, 13, 10, 57, 49, 10, 54, 50, 10]) with
      | .ok o => o.bytes == rec3 0x5A 0 7 ++ rec3 0x3E 0 0 && o.trace.length == 2 &&
          o.trace.head? == some ⟨"LOAD_CONST", 90, some 7⟩ && o.diagnostics == [.unrecognizedOpcode]
      | .error _ => false) = true := by decide

/-! ### Witnesses: for each statement with hypotheses, data that meet them, clause by clause -/

/-- A loaded state over one record. -/
def one (b0 b1 b2 : Nat) (stack : List Value) (mem : Memory) : State := st (rec3 b0 b1 b2) stack mem

/-- A terminal state. -/
def ended (s : State) : State := { s with status := .done }

theorem witness_DecodeFollowsOpcodeMap :
    [0x5A#8, 0x01#8, 0x3E#8, 0x89#8].map BitVec.toNat = [90, 1, 62, 137] ∧
      [0x00#8, 0xFF#8].all (fun b => b.toNat != 90 && b.toNat != 1 && b.toNat != 62 && b.toNat != 137) = true := by decide

theorem witness_DecodeOfEncode : (Instr.loadConst 65535).wellFormed = true ∧ (Instr.readMem 255).wellFormed = true ∧
    Instr.writeMem.wellFormed = true ∧ (Instr.sqrt 255).wellFormed = true := by decide

theorem witness_EncodeOfDecode :
    decode [0x5A#8, 0xFF#8, 0xFF#8, 0x01#8, 0x02#8, 0x03#8] = .instr (.loadConst 65535) ∧
      decode [0x01#8, 0xFF#8, 0x01#8, 0x02#8, 0x03#8, 0x04#8] = .instr (.readMem 255) ∧
      decode [0x3E#8, 0x01#8, 0x02#8, 0x03#8, 0x04#8, 0x05#8] = .instr .writeMem ∧
      decode [0x89#8, 0xFF#8, 0x01#8, 0x02#8, 0x03#8, 0x04#8] = .instr (.sqrt 255) := by decide

/-- The program of one LOAD_CONST 1 whose padding is not zero (V-DEC-4). -/
def padded : State := st [0x5A#8, 0x00#8, 0x01#8, 0xAA#8, 0xBB#8, 0xCC#8] [] []

theorem witness_PaddingIsNeverRead : padded.status = .running ∧
    padded.prog = some [0x5A#8, 0x00#8, 0x01#8, 0xAA#8, 0xBB#8, 0xCC#8] ∧
    decode (([0x5A#8, 0x00#8, 0x01#8, 0xAA#8, 0xBB#8, 0xCC#8].drop padded.pc).take 6) = .instr (.loadConst 1) ∧
    step padded = .next (padded.complete [.int 1] []) := ⟨rfl, rfl, rfl, rfl⟩

theorem witness_StepRunsDecodedInstruction : (one 0x3E 0 0 [] []).status = .running ∧
    (one 0x3E 0 0 [] []).prog = some (rec3 0x3E 0 0) ∧
    decode (((rec3 0x3E 0 0).drop (one 0x3E 0 0 [] []).pc).take 6) = .instr .writeMem := by decide

theorem witness_FetchWordIsExecutedNext : decodeTableWord 48 0x89FF00000000 = some (.sqrt 255) := by decide

theorem witness_IllegalOpcodeHalts : (one 0xFF 0 0 [.int 9] []).status = .running ∧
    (one 0xFF 0 0 [.int 9] []).prog = some (rec3 0xFF 0 0) ∧
    ((rec3 0xFF 0 0).drop (one 0xFF 0 0 [.int 9] []).pc).take 6 = [0xFF#8, 0#8, 0#8, 0#8, 0#8, 0#8] ∧
    (0xFF#8).toNat ≠ 90 ∧ (0xFF#8).toNat ≠ 1 ∧ (0xFF#8).toNat ≠ 62 ∧ (0xFF#8).toNat ≠ 137 := by decide

theorem witness_TerminationTest :
    ((st [] [] []).status = .running ∧ (st [] [] []).prog = some [] ∧ ([] : List Byte).length ≤ (st [] [] []).pc) ∧
    ((one 0x5A 0 1 [] []).status = .running ∧ (one 0x5A 0 1 [] []).prog = some (rec3 0x5A 0 1) ∧
      (one 0x5A 0 1 [] []).pc < (rec3 0x5A 0 1).length ∧
      step (one 0x5A 0 1 [] []) = .next ((one 0x5A 0 1 [] []).complete [.int 1] [])) :=
  ⟨by decide, rfl, rfl, by decide, rfl⟩

/-- A step after which the engine runs on, and a step that ends the run. -/
theorem witness_PcIncrement :
    (step (one 0x5A 0 1 [] []) = .next ((one 0x5A 0 1 [] []).complete [.int 1] []) ∧
      ((one 0x5A 0 1 [] []).complete [.int 1] []).status = .running) ∧
    (step (st [] [] []) = .next (ended (st [] [] [])) ∧ (ended (st [] [] [])).status ≠ .running) :=
  ⟨⟨rfl, rfl⟩, rfl, by decide⟩

theorem witness_PcCountsInstructions : (one 0x5A 0 1 [] []).status = .running ∧ (one 0x5A 0 1 [] []).pc = 0 ∧
    (stepTimes 1 (one 0x5A 0 1 [] []) = .next ((one 0x5A 0 1 [] []).complete [.int 1] []) ∧
      ((one 0x5A 0 1 [] []).complete [.int 1] []).status = .running) ∧
    (stepTimes 2 (one 0x5A 0 1 [] []) = .next (ended ((one 0x5A 0 1 [] []).complete [.int 1] [])) ∧
      (ended ((one 0x5A 0 1 [] []).complete [.int 1] [])).status ≠ .running) :=
  ⟨rfl, rfl, ⟨rfl, rfl⟩, rfl, by decide⟩

theorem witness_TerminalStatesHaveNoStep : (ended State.reset).status ≠ .running ∧
    (takeFault State.reset .stackUnderflow).status ≠ .running := by decide

theorem witness_NothingRunsBeforeFirstLoad : State.reset.prog = none ∧ State.reset.status = .running := by decide

/-- The last free place of a stack of capacity 2. -/
theorem witness_LoadConstPushes :
    ∀ c, (bounded 2 (one 0x5A 0 1 [.int 1] [])).params.stackCapacity = some c →
      (bounded 2 (one 0x5A 0 1 [.int 1] [])).stack.length < c := by
  intro c h
  cases h
  decide

/-- The last cell, over a full stack of capacity 1, and the first cell. -/
theorem witness_ReadMemPushesCell :
    ((bounded 1 (one 0x01 23 0 [.int 1000] [])).stack = [.int 1000] ∧ (0 : Int) ≤ 1000 + (23 : Nat) ∧
      1000 + ((23 : Nat) : Int) < (bounded 1 (one 0x01 23 0 [.int 1000] [])).params.memSize ∧
      (bounded 1 (one 0x01 23 0 [.int 1000] [])).stackFits = true) ∧
    ((one 0x01 0 0 [.int 0] []).stack = [.int 0] ∧ (0 : Int) ≤ 0 + (0 : Nat) ∧
      0 + ((0 : Nat) : Int) < (one 0x01 0 0 [.int 0] []).params.memSize ∧
      (one 0x01 0 0 [.int 0] []).stackFits = true) := by decide

theorem witness_WriteMemStores : (one 0x3E 0 0 [.int 9, .int 1023] [(7, .int 1)]).mem.wf ∧
    (one 0x3E 0 0 [.int 9, .int 1023] [(7, .int 1)]).stack = [.int 9, .int 1023] ∧ (0 : Int) ≤ 1023 ∧
    (1023 : Int) < (one 0x3E 0 0 [.int 9, .int 1023] [(7, .int 1)]).params.memSize := by decide

/-- Source and destination at the last cell and at the first. -/
theorem witness_SqrtStoresRoot :
    ((one 0x89 255 0 [.int 0, .int 768] [(0, .int 16)]).mem.wf ∧
      (one 0x89 255 0 [.int 0, .int 768] [(0, .int 16)]).stack = [.int 0, .int 768] ∧
      (0 : Int) < (one 0x89 255 0 [.int 0, .int 768] [(0, .int 16)]).params.memSize ∧
      (Memory.read (one 0x89 255 0 [.int 0, .int 768] [(0, .int 16)]).mem (0 : Int).toNat).isNegative = false ∧
      (0 : Int) ≤ 768 + (255 : Nat) ∧
      768 + ((255 : Nat) : Int) < (one 0x89 255 0 [.int 0, .int 768] [(0, .int 16)]).params.memSize) ∧
    ((one 0x89 0 0 [.int 1023, .int 0] []).stack = [.int 1023, .int 0] ∧
      (1023 : Int) < (one 0x89 0 0 [.int 1023, .int 0] []).params.memSize) := by decide

theorem witness_SqrtInPlace : (one 0x89 2 0 [.int 5, .int 3] [(5, .int 9)]).mem.wf ∧
    (one 0x89 2 0 [.int 5, .int 3] [(5, .int 9)]).stack = [.int 5, .int 3] ∧ (0 : Int) ≤ 5 ∧
    (5 : Int) < (one 0x89 2 0 [.int 5, .int 3] [(5, .int 9)]).params.memSize ∧ (3 : Int) + (2 : Nat) = 5 ∧
    (Memory.read (one 0x89 2 0 [.int 5, .int 3] [(5, .int 9)]).mem (5 : Int).toNat).isNegative = false := by decide

/-- The bytes of a record, met by a loaded state over it. -/
theorem witness_record (b0 b1 b2 : Nat) (stack : List Value) (mem : Memory) :
    (one b0 b1 b2 stack mem).status = .running ∧ (one b0 b1 b2 stack mem).prog = some (rec3 b0 b1 b2) ∧
      ((rec3 b0 b1 b2).drop (one b0 b1 b2 stack mem).pc).take 6 =
        [BitVec.ofNat 8 b0, BitVec.ofNat 8 b1, BitVec.ofNat 8 b2, 0#8, 0#8, 0#8] := ⟨rfl, rfl, rfl⟩

/-- LOAD_CONST with room, and on a full stack; the bytes are `witness_record`'s. -/
theorem witness_LoadConstRule :
    (((rec3 0x5A 1 2).drop (one 0x5A 1 2 [] []).pc).take 6 = [0x5A#8, 0x01#8, 0x02#8, 0#8, 0#8, 0#8] ∧
      (one 0x5A 1 2 [] []).params.stackCapacity = none) ∧
    (((rec3 0x5A 1 2).drop (bounded 1 (one 0x5A 1 2 [.int 1] [])).pc).take 6 =
        [0x5A#8, 0x01#8, 0x02#8, 0#8, 0#8, 0#8] ∧
      (bounded 1 (one 0x5A 1 2 [.int 1] [])).params.stackCapacity = some 1 ∧
      1 ≤ (bounded 1 (one 0x5A 1 2 [.int 1] [])).stack.length) := by decide

/-- The stacks of the three clauses of READ_MEM, the last at the last cell and one past it. -/
theorem witness_ReadMemRule : (one 0x01 24 0 [] []).stack = [] ∧
    (one 0x01 24 0 [.real four] []).stack = [.real four] ∧
    (one 0x01 24 0 [.int 999] []).stack = [.int 999] ∧ (one 0x01 24 0 [.int 999] []).stackFits = true ∧
    (0 ≤ (999 : Int) + (0x18#8).toNat ∧
      999 + ((0x18#8).toNat : Int) < (one 0x01 24 0 [.int 999] []).params.memSize) ∧
    ¬ (1000 + ((0x18#8).toNat : Int) < (one 0x01 24 0 [.int 1000] []).params.memSize) ∧
    ((rec3 0x01 24 0).drop (one 0x01 24 0 [.int 999] []).pc).take 6 =
      [0x01#8, 0x18#8, 0x00#8, 0#8, 0#8, 0#8] := by decide

/-- The stacks of the clauses of WRITE_MEM, the last at the last cell and one past it. -/
theorem witness_WriteMemRule : (one 0x3E 0 0 [] []).stack.length < 2 ∧ (one 0x3E 0 0 [.int 5] []).stack.length < 2 ∧
    (one 0x3E 0 0 [.int 9, .real four] []).stack = [.int 9, .real four] ∧
    (one 0x3E 0 0 [.int 9, .int 1023] []).stack = [.int 9, .int 1023] ∧
    (1023 : Int) < (one 0x3E 0 0 [.int 9, .int 1023] []).params.memSize ∧
    ¬ ((1024 : Int) < (one 0x3E 0 0 [.int 9, .int 1024] []).params.memSize) ∧
    ((rec3 0x3E 0 0).drop (one 0x3E 0 0 [] []).pc).take 6 = [0x3E#8, 0x00#8, 0x00#8, 0#8, 0#8, 0#8] := by decide

/-- The stacks of the seven clauses of SQRT in their order; the domain clause needs a negative cell (V-SQRT-15). -/
theorem witness_SqrtFaultOrder : (one 0x89 4 0 [] []).stack = [] ∧
    (one 0x89 4 0 [.real four, .int 5] []).stack = [.real four, .int 5] ∧
    ((one 0x89 4 0 [.int 1024] []).stack = [.int 1024] ∧
      ¬ ((1024 : Int) < (one 0x89 4 0 [.int 1024] []).params.memSize)) ∧
    ((one 0x89 4 0 [.int 1023] []).stack = [.int 1023] ∧
      (1023 : Int) < (one 0x89 4 0 [.int 1023] []).params.memSize) ∧
    ((one 0x89 4 0 [.int 0, .int 1] [(0, .int (-1))]).stack = [.int 0, .int 1] ∧
      (Memory.read (one 0x89 4 0 [.int 0, .int 1] [(0, .int (-1))]).mem (0 : Int).toNat).isNegative = true) ∧
    ((one 0x89 4 0 [.int 3, .real four] [(3, .int 16)]).stack = [.int 3, .real four] ∧
      (Memory.read (one 0x89 4 0 [.int 3, .real four] [(3, .int 16)]).mem (3 : Int).toNat).isNegative = false) ∧
    ((one 0x89 4 0 [.int 0, .int 1020] [(0, .int 16)]).stack = [.int 0, .int 1020] ∧
      (Memory.read (one 0x89 4 0 [.int 0, .int 1020] [(0, .int 16)]).mem (0 : Int).toNat).isNegative = false ∧
      ¬ (1020 + ((0x04#8).toNat : Int) < (one 0x89 4 0 [.int 0, .int 1020] [(0, .int 16)]).params.memSize)) ∧
    ((rec3 0x89 4 0).drop (one 0x89 4 0 [] []).pc).take 6 = [0x89#8, 0x04#8, 0x00#8, 0#8, 0#8, 0#8] := by decide

/-- A memory of two cells and a stack, none of which holds the integer 0. -/
def noZero : State :=
  { one 0x01 0 0 [.int 1] [(0, .int 5), (1, .int 6)] with params := { Params.default with memSize := 2 } }

/-- LOAD_CONST grows the stack; READ_MEM leaves the integer 42, which a cell held before; and a READ_MEM where no cell
and no place of the stack holds 0, so that a load of 0 would create it. -/
theorem witness_OnlyLoadConstGrowsOrCreates :
    (one 0x01 0 0 [.int 7] [(7, .int 42)]).mem.wf ∧
    (noZero.mem.wf ∧ (∀ j < noZero.params.memSize, noZero.mem.read j ≠ .int 0) ∧ .int 0 ∉ noZero.stack ∧
      exec (.readMem 0) noZero = .next (noZero.complete [.int 6] noZero.mem)) ∧
    (exec (.loadConst 1) (st [] [] []) = .next ((st [] [] []).complete [.int 1] []) ∧
      (st [] [] []).stack.length < ((st [] [] []).complete [.int 1] []).stack.length) ∧
    (exec (.readMem 0) (one 0x01 0 0 [.int 7] [(7, .int 42)]) =
        .next ((one 0x01 0 0 [.int 7] [(7, .int 42)]).complete [.int 42] [(7, .int 42)]) ∧
      (∀ b, Instr.readMem 0 ≠ .loadConst b) ∧
      .int 42 ∈ ((one 0x01 0 0 [.int 7] [(7, .int 42)]).complete [.int 42] [(7, .int 42)]).stack) :=
  ⟨by decide, ⟨by decide, by decide, by decide, rfl⟩, ⟨rfl, by decide⟩, rfl, fun _ h => (by cases h), by decide⟩

theorem witness_EqualCellsEqualMemories :
    Memory.wf [(3, .int 16), (5, .real four)] ∧ ∀ i, Memory.read [(3, .int 16), (5, .real four)] i =
      Memory.read (Memory.write (Memory.write [] 5 (.real four)) 3 (.int 16)) i := ⟨by decide, fun _ => rfl⟩

theorem witness_StepNeverWritesProgram :
    step (one 0x3E 0 0 [.int 9, .int 0] []) = .next ((one 0x3E 0 0 [.int 9, .int 0] []).complete [] [(0, .int 9)]) := rfl

theorem witness_ProgramIsNotData : (one 0x3E 0 0 [.int 9, .int 0] []).status = .running ∧
    exec .writeMem (one 0x3E 0 0 [.int 9, .int 0] []) =
      .next ((one 0x3E 0 0 [.int 9, .int 0] []).complete [] [(0, .int 9)]) ∧
    ((one 0x3E 0 0 [.int 9, .int 0] []).complete [] [(0, .int 9)]).status = .running := ⟨rfl, rfl, rfl⟩

/-- A loaded state over a record, with what the invariant asks of the stack and the memory. -/
theorem witness_Invariant : (one 0x3E 0 0 [.int 9, .int 0] [(7, .int 1)]).Invariant :=
  ⟨by decide, by decide, by decide, by decide, by decide, by decide, by decide, by decide⟩

theorem witness_StepKeepsInvariant : (one 0x3E 0 0 [.int 9, .int 0] [(7, .int 1)]).Invariant ∧
    step (one 0x3E 0 0 [.int 9, .int 0] [(7, .int 1)]) =
      .next ((one 0x3E 0 0 [.int 9, .int 0] [(7, .int 1)]).complete [] [(0, .int 9), (7, .int 1)]) :=
  ⟨witness_Invariant, rfl⟩

theorem witness_LoadThenResetIsReady : State.reset.params.wellFormed = true ∧
    hostLoad (rec3 0x3E 0 0) State.reset = (.accepted, { State.reset with prog := some (rec3 0x3E 0 0) }) ∧
    hostReset { State.reset with prog := some (rec3 0x3E 0 0) } = .ok (one 0x3E 0 0 [] []) := by decide

/-- Values at both ends of the bound: 0 and 65535, and 4.0. -/
theorem witness_ValuesBounded : (one 0x3E 0 0 [.int 65535, .int 0] [(7, .real four)]).ValuesBounded := by
  refine ⟨?_, ?_⟩ <;> decide

theorem witness_StepKeepsValuesBounded : (one 0x3E 0 0 [.int 65535, .int 0] [(7, .real four)]).ValuesBounded ∧
    step (one 0x3E 0 0 [.int 65535, .int 0] [(7, .real four)]) =
      .next ((one 0x3E 0 0 [.int 65535, .int 0] [(7, .real four)]).complete [] [(0, .int 65535), (7, .real four)]) :=
  ⟨witness_ValuesBounded, rfl⟩

/-- SQRT on an empty stack faults: a fault status that the statement speaks of. -/
theorem witness_SqrtDomainNeverFires : (one 0x89 0 0 [] []).ValuesBounded ∧
    step (one 0x89 0 0 [] []) = .next (takeFault (one 0x89 0 0 [] []) .stackUnderflow) ∧
    (takeFault (one 0x89 0 0 [] []) .stackUnderflow).status =
      .fault (faultRecord (one 0x89 0 0 [] []) .stackUnderflow) := ⟨⟨by decide, by decide⟩, rfl, rfl⟩

theorem witness_RunAlwaysReturns : (one 0x3E 0 0 [.int 9, .int 0] [(7, .int 1)]).Invariant ∧
    (one 0x3E 0 0 [.int 9, .int 0] [(7, .int 1)]).prog ≠ none := ⟨witness_Invariant, by decide⟩

theorem witness_SqrtOfPerfectSquare : 255 * 255 < 2 ^ 53 ∧ 94906265 * 94906265 < 2 ^ 53 := by decide

theorem witness_SqrtIsCorrectlyRounded : (Value.int 2).num = some 2 ∧ (0 : ℚ) ≤ 2 ∧ (2 : ℚ) < 2 ^ 1024 :=
  ⟨rfl, by norm_num, lt_of_lt_of_le (by norm_num : (2 : ℚ) < 2 ^ 2) (pow_le_pow_right₀ (by norm_num) (by norm_num))⟩

theorem witness_SqrtOfNaNIsNaN : realIsNaN 0x7FF8000000000000#64 = true := by decide

/-- An engine whose `REAL` is the natural numbers and whose `SQRT_FN` is the integer square root. -/
def natArith : RealArith Nat where
  isNegative := fun _ => false
  sqrtFn := fun v =>
    match v with
    | .int n => isqrt n.toNat
    | .real n => isqrt n

/-- A running engine over natural reals at a SQRT 2 whose source, cell 3, holds the given value. -/
def natState (v : Value Nat) : State Nat :=
  { State.initial Params.default with prog := some (rec3 0x89 2 0), stack := [.int 3, .int 0], mem := [(3, v)] }

/-- R10: the engine runs over another `REAL` and `SQRT_FN`. -/
theorem test_sqrt_other_real : (match stepWith natArith (natState (.int 24)) with
    | .next t => t.mem == [(2, .real 4), (3, .int 24)] && t.stack == [] && t.pc == 6
    | .fault _ => false
    | .refused _ => false) = true := by decide

theorem witness_SqrtRuleForEveryReal : (natState (.int 24)).status = .running ∧
    (natState (.int 24)).prog = some (rec3 0x89 2 0) ∧
    ((rec3 0x89 2 0).drop (natState (.int 24)).pc).take 6 = [0x89#8, 0x02#8, 0x00#8, 0#8, 0#8, 0#8] ∧
    (natState (.int 24)).mem.wf ∧ (natState (.int 24)).stack = [.int 3, .int 0] ∧ (0 : Int) ≤ 3 ∧
    (3 : Int) < (natState (.int 24)).params.memSize ∧
    ((natState (.int 24)).mem.read (3 : Int).toNat).isNegativeBy natArith.isNegative = false ∧
    (0 : Int) ≤ 0 + ((0x02#8).toNat : Int) ∧
    0 + ((0x02#8).toNat : Int) < (natState (.int 24)).params.memSize := by decide

/-- The law of R162 holds of the engine over the natural numbers. -/
theorem natArith_lawful : natArith.Lawful (fun n => some (n : ℝ)) where
  isNegative_iff r x h := by
    cases h
    exact ⟨fun h => (by cases h), fun h => absurd h (not_lt.2 (Nat.cast_nonneg r))⟩
  sqrt_int k _ := by simp only [natArith, Int.toNat_natCast, isqrt_mul_self]
  sqrt_real k r _ h := by
    have hr : r = k * k := by exact_mod_cast Option.some.inj h
    simp only [natArith, hr, isqrt_mul_self]

/-- A lawful engine, the largest square, and both tags of the source. -/
theorem witness_LawfulRootOfPerfectSquareIsExact : natArith.Lawful (fun n => some (n : ℝ)) ∧ 255 * 255 ≤ 65535 ∧
    ((natState (.int 65025)).mem.wf ∧ (natState (.int 65025)).stack = [.int 3, .int 0] ∧
      (3 : Int) < (natState (.int 65025)).params.memSize ∧
      (natState (.int 65025)).mem.read (3 : Int).toNat = .int ((255 * 255 : Nat) : Int)) ∧
    ((natState (.real 65025)).mem.wf ∧ (natState (.real 65025)).stack = [.int 3, .int 0] ∧
      (natState (.real 65025)).mem.read (3 : Int).toNat = .real (255 * 255)) :=
  ⟨natArith_lawful, by decide, by decide, by decide⟩

theorem witness_LoadAcceptsOrChangesNothing :
    ((one 0x3E 0 0 [] []).prog ≠ none ∧ (one 0x3E 0 0 [] []).status = .running) ∧
    (State.reset.prog = none ∧ (rec3 0x3E 0 0).length % 6 = 0 ∧ State.reset.params.progMaxBytes = none ∧
      (rec3 0x3E 0 0 ++ [0#8]).length % 6 ≠ 0) ∧
    ((ended (one 0x3E 0 0 [] [])).status ≠ .running ∧
      ({ State.reset with params := { Params.default with progMaxBytes := some 0 } } : State).params.progMaxBytes =
        some 0 ∧ 0 < (rec3 0x3E 0 0).length) := by decide

theorem witness_ResetLeavesResetValues : (ended (one 0x3E 0 0 [] [])).prog ≠ none ∧
    (ended (one 0x3E 0 0 [] [])).status ≠ .running := by decide

/-- The whole memory and one cell. -/
theorem witness_ReadResultReturnsSlice : (ended (one 0x3E 0 0 [] [])).status ≠ .running ∧
    ((0 : Int) ≤ 0 ∧ (0 : Int) ≤ 1023 ∧ (1023 : Int) < (ended (one 0x3E 0 0 [] [])).params.memSize) ∧
    ((0 : Int) ≤ 7 ∧ (7 : Int) ≤ 7 ∧ (7 : Int) < (ended (one 0x3E 0 0 [] [])).params.memSize) := by decide

theorem witness_ReadResultRefusesOutside : (ended (one 0x3E 0 0 [] [])).status ≠ .running ∧ (-1 : Int) < 0 ∧
    ((ended (one 0x3E 0 0 [] [])).params.memSize : Int) ≤ 1024 ∧ (4 : Int) < 5 ∧
    (one 0x3E 0 0 [] []).status = .running := by decide

theorem witness_ReadStateListsStackBottomUp : (ended (one 0x3E 0 0 [.int 2, .int 1] [])).status ≠ .running ∧
    (one 0x3E 0 0 [] []).status = .running := by decide

/-- The four forms of line at the ends of their operands (`90 65535`, `1 255`, `137 255`, `62`), and a text. -/
theorem witness_RecordEmission :
    parseLine (chars [57, 48, 32, 54, 53, 53, 51, 53]) = some (.two 90 65535) ∧
    parseLine (chars [49, 32, 50, 53, 53]) = some (.two 1 255) ∧
    parseLine (chars [49, 51, 55, 32, 50, 53, 53]) = some (.two 137 255) ∧
    parseLine (chars [54, 50]) = some (.one 62) ∧
    assemble (chars [54, 50, 10]) = .ok ⟨[.writeMem], []⟩ := by
  refine ⟨by decide, by decide, by decide, by decide, rfl⟩

/-- A line for each check in order: blank, `91`, `91 1`, `90`, `62 1`, `90 65536`, `90 -1`, `1 256`. -/
theorem witness_LineChecksInOrder :
    parseLine (chars [32]) = none ∧ parseLine (chars [57, 49]) = some (.one 91) ∧
    parseLine (chars [57, 49, 32, 49]) = some (.two 91 1) ∧ parseLine (chars [57, 48]) = some (.one 90) ∧
    parseLine (chars [54, 50, 32, 49]) = some (.two 62 1) ∧
    parseLine (chars [57, 48, 32, 54, 53, 53, 51, 54]) = some (.two 90 65536) ∧
    parseLine (chars [57, 48, 32, 45, 49]) = some (.two 90 (-1)) ∧
    parseLine (chars [49, 32, 50, 53, 54]) = some (.two 1 256) := by decide

theorem witness_AssembledRecordsDecodeBack : assemble (chars [54, 50, 10]) = .ok ⟨[.writeMem], []⟩ ∧
    ((linesFrom [] (chars [54, 50, 10])).filterMap emittedBy)[0]? = some .writeMem ∧
    emittedBy (chars [54, 50]) = some .writeMem := ⟨rfl, by decide, by decide⟩

/-- The program `62` ends in a fault, of another kind. -/
theorem witness_AssembledProgramIsNeverIllegal : State.reset.params.wellFormed = true ∧
    assemble (chars [54, 50, 10]) = .ok ⟨[.writeMem], []⟩ ∧
    hostLoad (Assembled.bytes ⟨[.writeMem], []⟩) State.reset =
      (.accepted, { State.reset with prog := some (rec3 0x3E 0 0) }) ∧
    hostReset { State.reset with prog := some (rec3 0x3E 0 0) } = .ok (one 0x3E 0 0 [] []) ∧
    hostRun (one 0x3E 0 0 [] []) = .next (takeFault (one 0x3E 0 0 [] []) .stackUnderflow) ∧
    (takeFault (one 0x3E 0 0 [] []) .stackUnderflow).status =
      .fault (faultRecord (one 0x3E 0 0 [] []) .stackUnderflow) :=
  ⟨by decide, rfl, by decide, by decide, rfl, rfl⟩

end Sys2Proof.Tests
end

section
/-! The program counter along a sequence of steps (R22). -/

namespace Sys2Proof.Machine

/-- R113 with the run's end: the two ways a step can leave the pc. -/
theorem step_pc_cases {s t : State} (h : step s = .next t) :
    (t.status = .running ∧ t.pc = s.pc + 6) ∨ (t.status ≠ .running ∧ t.pc = s.pc) := by
  have hrunning : s.status = .running := (step_cases h).1
  rcases step_shape h with rfl | ⟨stack, mem, rfl⟩ | ⟨r, rfl⟩
  · exact .inr (by simp)
  · exact .inl (by simp [hrunning])
  · exact .inr (by simp)

theorem stepTimes_succ_eq_next {n : Nat} {s t : State} :
    stepTimes (n + 1) s = .next t ↔ ∃ u, step s = .next u ∧ stepTimes n u = .next t := by
  rw [stepTimes]
  cases step s <;> simp

/-- R110: a terminal state has no step, so only the empty sequence of steps starts there. -/
theorem stepTimes_of_not_running {n : Nat} {s t : State} (hs : s.status ≠ .running)
    (h : stepTimes n s = .next t) : n = 0 ∧ t = s := by
  cases n with
  | zero => exact ⟨rfl, (Host.Outcome.next.inj h).symm⟩
  | succ n =>
    obtain ⟨u, hstep, -⟩ := stepTimes_succ_eq_next.1 h
    exact absurd (step_cases hstep).1 hs

/-- R22 from any pc: every step adds 6, except one that ends the run, which is the last. -/
theorem stepTimes_pc {n : Nat} {s t : State} (hs : s.status = .running) (h : stepTimes n s = .next t) :
    (t.status = .running → t.pc = s.pc + 6 * n) ∧ (t.status ≠ .running → t.pc + 6 = s.pc + 6 * n) := by
  induction n generalizing s with
  | zero =>
    obtain rfl : s = t := Host.Outcome.next.inj h
    exact ⟨fun _ => rfl, fun hend => absurd hs hend⟩
  | succ n ih =>
    obtain ⟨u, hstep, hrest⟩ := stepTimes_succ_eq_next.1 h
    rcases step_pc_cases hstep with ⟨hu, hpc⟩ | ⟨hu, hpc⟩
    · obtain ⟨hrun, hend⟩ := ih hu hrest
      exact ⟨fun ht => by have := hrun ht; omega, fun ht => by have := hend ht; omega⟩
    · obtain ⟨rfl, rfl⟩ := stepTimes_of_not_running hu hrest
      exact ⟨fun ht => absurd ht hu, fun _ => by omega⟩

/-- Settles O12, by induction on the number of steps (`stepTimes_pc`) from a pc of 0. -/
theorem pcCountsInstructions : Obligations.PcCountsInstructions := by
  intro n s t hs hpc h
  simpa [hpc] using stepTimes_pc hs h

end Sys2Proof.Machine
end

section
/-! Records: the decoder on numbers, the encoder's bytes, and both directions between them (30_encoding.md). -/

namespace Sys2Proof.Machine

/-- R79 with the opcode byte as a number. -/
theorem decode_record (b0 b1 b2 b3 b4 b5 : Byte) :
    decode [b0, b1, b2, b3, b4, b5] =
      if b0.toNat = 90 then .instr (.loadConst (beU16 b1 b2))
      else if b0.toNat = 1 then .instr (.readMem b1.toNat)
      else if b0.toNat = 62 then .instr .writeMem
      else if b0.toNat = 137 then .instr (.sqrt b1.toNat)
      else .illegal b0 := by
  simp only [decode, decodeRecord, ← BitVec.toNat_inj, BitVec.toNat_ofNat, Nat.reducePow, Nat.reduceMod]

/-- Settles O1: the equation `decode_record`, branch by branch. -/
theorem decodeFollowsOpcodeMap : Obligations.DecodeFollowsOpcodeMap := by
  intro b0 b1 b2 b3 b4 b5
  rw [decode_record]
  refine ⟨fun h => ?_, fun h => ?_, fun h => ?_, fun h => ?_, fun h90 h1 h62 h137 => ?_⟩
  · simp [h, beU16]
  · simp [h]
  · simp [h]
  · simp [h]
  · simp [h90, h1, h62, h137]

@[simp] theorem encode_length (i : Instr) : (encode i).length = 6 := by
  cases i with
  | loadConst b => exact (Laws.EncodesOneRecord.loadConst b).1
  | readMem b => exact (Laws.EncodesOneRecord.readMem b).1
  | writeMem => exact Laws.EncodesOneRecord.writeMem.1
  | sqrt b => exact (Laws.EncodesOneRecord.sqrt b).1

/-- The byte of a number that fits one. -/
theorem toNat_byte {n : Nat} (h : n ≤ 255) : (BitVec.ofNat 8 n).toNat = n := by
  rw [BitVec.toNat_ofNat]
  omega

/-- The high byte of a number of 16 bits. -/
theorem toNat_highByte {n : Nat} (h : n ≤ 65535) : (BitVec.ofNat 8 (n / 256)).toNat = n / 256 :=
  toNat_byte (by omega)

/-- R94: the encoder loses nothing of a well-formed instruction. -/
theorem decode_encode {i : Instr} (h : i.wellFormed = true) : decode (encode i) = .instr i := by
  cases i with
  | loadConst b =>
    have hb : b ≤ 65535 := of_decide_eq_true h
    have hsum : b / 256 * 256 + b % 256 = b := by omega
    simp [encode, decode_record, beU16, toNat_highByte hb, hsum]
  | readMem b => simp [encode, decode_record, toNat_byte (of_decide_eq_true h)]
  | writeMem => rfl
  | sqrt b => simp [encode, decode_record, toNat_byte (of_decide_eq_true h)]

/-- What decodes to an instruction begins with its opcode byte (R79). -/
theorem head?_of_decode {bytes : List Byte} {i : Instr} (h : decode bytes = .instr i) :
    bytes.head? = some i.opcode := by
  obtain ⟨b0, b1, b2, b3, b4, b5, rfl, hcases⟩ := decode_eq_instr h
  rcases hcases with ⟨rfl, rfl⟩ | ⟨rfl, rfl⟩ | ⟨rfl, rfl⟩ | ⟨rfl, rfl⟩ <;> rfl

/-- What decodes to an instruction is six bytes. -/
theorem length_of_decode {bytes : List Byte} {i : Instr} (h : decode bytes = .instr i) : bytes.length = 6 := by
  obtain ⟨b0, b1, b2, b3, b4, b5, rfl, -⟩ := decode_eq_instr h
  rfl

/-- R82: a sequence of instructions takes six bytes each. -/
theorem length_flatMap_encode (l : List Instr) : (l.flatMap encode).length = 6 * l.length := by
  simp [List.length_flatMap, Nat.mul_comm]

/-- The `k`-th record of a sequence of instructions is the encoding of the `k`-th. -/
theorem record_flatMap_encode {l : List Instr} {k : Nat} {i : Instr} (h : l[k]? = some i) :
    ((l.flatMap encode).drop (6 * k)).take 6 = encode i := by
  induction l generalizing k with
  | nil => simp at h
  | cons j l ih =>
    cases k with
    | zero =>
      obtain rfl : j = i := by simpa using h
      simp
    | succ k =>
      have hdrop : (encode j ++ l.flatMap encode).drop (6 + 6 * k) = (l.flatMap encode).drop (6 * k) := by
        rw [← List.drop_drop, List.drop_left' (encode_length j)]
      rw [List.flatMap_cons, Nat.mul_succ, Nat.add_comm, hdrop]
      exact ih (by simpa using h)

end Sys2Proof.Machine
end

section
/-! The assembler: which lines emit which instruction, and the output of a whole text (R92 to R95). -/

namespace Sys2Proof.Machine

/-- The numbers of the line that emits an instruction: its opcode and its operand, where it has one (R92). -/
def lineOf (i : Instr) : SourceLine :=
  match operandOf i with
  | none => .one (i.opcode.toNat : Int)
  | some b => .two (i.opcode.toNat : Int) (b : Int)

@[simp] theorem lineOf_loadConst (b : Nat) : lineOf (.loadConst b) = .two 90 b := rfl
@[simp] theorem lineOf_readMem (b : Nat) : lineOf (.readMem b) = .two 1 b := rfl
@[simp] theorem lineOf_writeMem : lineOf .writeMem = .one 62 := rfl
@[simp] theorem lineOf_sqrt (b : Nat) : lineOf (.sqrt b) = .two 137 b := rfl

/-- R92: the one opcode number without an operand. -/
theorem arity_eq_zero {a : Int} : arity a = some 0 ↔ a = 62 := by
  unfold arity
  grind

/-- R92: the opcode numbers with one operand. -/
theorem arity_eq_one {a : Int} : arity a = some 1 ↔ a = 90 ∨ a = 1 ∨ a = 137 := by
  unfold arity
  grind

/-- R93 checks 4 and 5: what emits is in range. -/
theorem emitChecked_eq_emit {a b : Int} {i : Instr} :
    emitChecked a b = .emit i ↔ instrOfNumbers a b.toNat = some i ∧ 0 ≤ b ∧ i.wellFormed = true := by
  unfold emitChecked
  rcases instrOfNumbers a b.toNat with _ | j
  · simp
  · by_cases hj : 0 ≤ b ∧ j.wellFormed = true
    · simp only [if_pos hj, LineResult.emit.injEq, Option.some.injEq]
      exact ⟨fun h => ⟨h, h ▸ hj⟩, fun h => h.1⟩
    · simp only [if_neg hj, Option.some.injEq, reduceCtorEq, false_iff]
      rintro ⟨rfl, h⟩
      exact hj h

/-- R93 check 3 on a line of one number: it emits only at arity 0. -/
theorem checkLine_one_eq_emit {a : Int} {i : Instr} :
    checkLine (.one a) = .emit i ↔ arity a = some 0 ∧ emitChecked a 0 = .emit i := by
  rw [checkLine]
  rcases arity a with _ | n
  · simp
  · by_cases hn : n = 0 <;> simp [hn]

/-- R93 check 3 on a line of two numbers: it emits only at arity 1. -/
theorem checkLine_two_eq_emit {a b : Int} {i : Instr} :
    checkLine (.two a b) = .emit i ↔ arity a = some 1 ∧ emitChecked a b = .emit i := by
  rw [checkLine]
  rcases arity a with _ | n
  · simp
  · by_cases hn : n = 1 <;> simp [hn]

/-- A line of an instruction's numbers emits it where its operand fits (R93 checks 2 to 5). -/
theorem checkLine_lineOf {i : Instr} (h : i.wellFormed = true) : checkLine (lineOf i) = .emit i := by
  cases i with
  | loadConst b => exact checkLine_two_eq_emit.2 ⟨rfl, emitChecked_eq_emit.2 ⟨rfl, Int.natCast_nonneg b, h⟩⟩
  | readMem b => exact checkLine_two_eq_emit.2 ⟨rfl, emitChecked_eq_emit.2 ⟨rfl, Int.natCast_nonneg b, h⟩⟩
  | writeMem => rfl
  | sqrt b => exact checkLine_two_eq_emit.2 ⟨rfl, emitChecked_eq_emit.2 ⟨rfl, Int.natCast_nonneg b, h⟩⟩

/-- Only the line of an instruction's own numbers emits it, and only where its operand fits. -/
theorem eq_lineOf_of_checkLine {l : SourceLine} {i : Instr} (h : checkLine l = .emit i) :
    l = lineOf i ∧ i.wellFormed = true := by
  cases l with
  | one a =>
    obtain ⟨ha, he⟩ := checkLine_one_eq_emit.1 h
    obtain ⟨hi, -, hwf⟩ := emitChecked_eq_emit.1 he
    obtain rfl := arity_eq_zero.1 ha
    obtain rfl : Instr.writeMem = i := Option.some.inj hi
    exact ⟨rfl, hwf⟩
  | two a b =>
    obtain ⟨ha, he⟩ := checkLine_two_eq_emit.1 h
    obtain ⟨hi, hb, hwf⟩ := emitChecked_eq_emit.1 he
    obtain ⟨n, rfl⟩ := Int.eq_ofNat_of_zero_le hb
    rcases arity_eq_one.1 ha with rfl | rfl | rfl
    · obtain rfl : Instr.loadConst n = i := Option.some.inj hi
      exact ⟨rfl, hwf⟩
    · obtain rfl : Instr.readMem n = i := Option.some.inj hi
      exact ⟨rfl, hwf⟩
    · obtain rfl : Instr.sqrt n = i := Option.some.inj hi
      exact ⟨rfl, hwf⟩

theorem emittedBy_eq_some {line : List Char} {i : Instr} :
    emittedBy line = some i ↔ assembleLine line = .emit i := by
  unfold emittedBy
  cases assembleLine line <;> simp

/-- R93 whole: the lines that emit an instruction are those of its numbers, where its operand fits. -/
theorem emittedBy_iff {line : List Char} {i : Instr} :
    emittedBy line = some i ↔ parseLine line = some (lineOf i) ∧ i.wellFormed = true := by
  rw [emittedBy_eq_some, assembleLine]
  rcases parseLine line with _ | l
  · simp
  · simp only [Option.some.injEq]
    constructor
    · exact eq_lineOf_of_checkLine
    · rintro ⟨rfl, hwf⟩
      exact checkLine_lineOf hwf

theorem emittedBy_wellFormed {line : List Char} {i : Instr} (h : emittedBy line = some i) :
    i.wellFormed = true := (emittedBy_iff.1 h).2

/-- What a line gives to an assembly that succeeds: the output of the rest, and the line's own instruction before it
where the line emits one. -/
theorem assembleLines_cons {line : List Char} {rest : List (List Char)} {o : Assembled}
    (h : assembleLines (line :: rest) = .ok o) :
    ∃ o', assembleLines rest = .ok o' ∧ o.instrs = (emittedBy line).toList ++ o'.instrs := by
  rw [assembleLines] at h
  unfold emittedBy
  generalize assembleLine line = result at h ⊢
  rcases hr : assembleLines rest with e | o'
  · cases result <;> simp [hr] at h
  · refine ⟨o', rfl, ?_⟩
    cases result with
    | emit i =>
      simp only [hr, Except.ok.injEq] at h
      exact h ▸ rfl
    | skip d =>
      simp only [hr, Except.ok.injEq] at h
      exact h ▸ rfl
    | fatal e => cases h

/-- An assembly that succeeds gives the instructions of its lines, in line order. -/
theorem assembleLines_instrs {lines : List (List Char)} {o : Assembled} (h : assembleLines lines = .ok o) :
    o.instrs = lines.filterMap emittedBy := by
  induction lines generalizing o with
  | nil => rw [← Except.ok.inj h, List.filterMap_nil]
  | cons line rest ih =>
    obtain ⟨o', hrest, hinstrs⟩ := assembleLines_cons h
    rw [hinstrs, ih hrest, List.filterMap_cons]
    cases emittedBy line <;> rfl

/-- R94: the bytes of a text are the records of the lines that emit, in line order. -/
theorem assemble_bytes {text : List Char} {o : Assembled} (h : assemble text = .ok o) :
    o.bytes = ((linesFrom [] text).filterMap emittedBy).flatMap encode := by
  rw [Assembled.bytes, assembleLines_instrs h]

/-- Settles O46: `assemble_bytes` makes the output a sequence of encodings, which decode back since every emitted
instruction is well-formed. -/
theorem assembledRecordsDecodeBack : Obligations.AssembledRecordsDecodeBack := by
  intro text o h
  rw [assemble_bytes h]
  refine ⟨length_flatMap_encode _, fun k i hk => ?_, fun line i hi => ?_⟩
  · obtain ⟨line, -, hline⟩ := List.mem_filterMap.1 (List.mem_of_getElem? hk)
    rw [record_flatMap_encode hk, decode_encode (emittedBy_wellFormed hline)]
  · rw [(emittedBy_iff.1 hi).1]
    cases i <;> rfl

/-- Settles O44: each form is `emittedBy_iff` at its instruction, and `assemble_bytes` concatenates. -/
theorem recordEmission : Obligations.RecordEmission := by
  refine ⟨fun line b => ⟨fun hp hb => ?_, fun hp hb => ?_, fun hp hb => ?_, fun hp => ?_⟩,
    fun text o => assemble_bytes⟩
  · refine ⟨.loadConst b, emittedBy_iff.2 ⟨hp, decide_eq_true hb⟩, ?_⟩
    simp [encode, toNat_highByte hb]
  · refine ⟨.readMem b, emittedBy_iff.2 ⟨hp, decide_eq_true hb⟩, ?_⟩
    simpa [encode] using toNat_byte hb
  · refine ⟨.sqrt b, emittedBy_iff.2 ⟨hp, decide_eq_true hb⟩, ?_⟩
    simpa [encode] using toNat_byte hb
  · exact ⟨.writeMem, emittedBy_iff.2 ⟨hp, rfl⟩, rfl⟩

end Sys2Proof.Machine
end

section
/-! A step over another program: what a step takes from the bytes at its pc (R66, R77, R110). -/

namespace Sys2Proof.Machine

variable {R : Type}

/-- A copy of the state with another program; nothing else changes. -/
def State.withProg (s : State R) (prog : Option (List Byte)) : State R := { s with prog := prog }

@[simp] theorem withProg_params (s : State R) (q : Option (List Byte)) : (s.withProg q).params = s.params := rfl
@[simp] theorem withProg_prog (s : State R) (q : Option (List Byte)) : (s.withProg q).prog = q := rfl
@[simp] theorem withProg_pc (s : State R) (q : Option (List Byte)) : (s.withProg q).pc = s.pc := rfl
@[simp] theorem withProg_stack (s : State R) (q : Option (List Byte)) : (s.withProg q).stack = s.stack := rfl
@[simp] theorem withProg_mem (s : State R) (q : Option (List Byte)) : (s.withProg q).mem = s.mem := rfl
@[simp] theorem withProg_status (s : State R) (q : Option (List Byte)) : (s.withProg q).status = s.status := rfl

/-- R66: no instruction's body reads the program. -/
theorem bodyWith_withProg (A : RealArith R) (i : Instr) (s : State R) (q : Option (List Byte)) :
    bodyWith A i (s.withProg q) = bodyWith A i s := by
  cases i <;> rfl

theorem complete_withProg (s : State R) (q : Option (List Byte)) (stack : List (Value R)) (mem : Memory R) :
    (s.withProg q).complete stack mem = (s.complete stack mem).withProg q := rfl

/-- A fault takes only the byte at the pc from the program (R31). -/
theorem takeFault_withProg {s : State R} {q : Option (List Byte)}
    (hq : (s.withProg q).progByte s.pc = s.progByte s.pc) (r : Raised R) :
    takeFault (s.withProg q) r = (takeFault s r).withProg q := by
  simp only [takeFault, faultRecord, withProg_pc, hq]
  rfl

/-- An instruction ends alike over two programs with the same byte at the pc. -/
theorem exec_withProg {i : Instr} {s t : State} {q : Option (List Byte)}
    (hq : (s.withProg q).progByte s.pc = s.progByte s.pc) (h : exec i s = .next t) :
    exec i (s.withProg q) = .next (t.withProg q) := by
  rw [exec_eq_execWith, execWith, bodyWith_withProg]
  rcases exec_cases h with ⟨stack, mem, hbody, rfl⟩ | ⟨r, hbody, rfl⟩
  · rw [hbody, settle_ok, complete_withProg]
  · rw [hbody, settle_error, takeFault_withProg hq]

/-- R110: where the bytes at the pc decode to an instruction, the step is that instruction. -/
theorem step_of_decode {s : State} {prog : List Byte} {i : Instr} (hs : s.status = .running)
    (hp : s.prog = some prog) (hd : decode (fetchRecord prog s.pc) = .instr i) : step s = exec i s := by
  have hinside : s.pc + 6 ≤ prog.length := fetchRecord_length.1 (length_of_decode hd)
  simp only [step, stepBy, hs, stepRunning, hp, if_neg (show ¬ prog.length ≤ s.pc by omega), hd, runDecoded]

/-- The byte at the pc is the opcode of the instruction fetched there. -/
theorem progByte_of_decode {s : State R} {prog : List Byte} {i : Instr} (hp : s.prog = some prog)
    (hd : decode (fetchRecord prog s.pc) = .instr i) : s.progByte s.pc = some i.opcode := by
  have hhead : (fetchRecord prog s.pc).head? = prog[s.pc]? := by
    simp [fetchRecord, List.head?_take, List.head?_drop]
  rw [State.progByte, State.progBytes, hp, Option.getD_some, ← hhead, head?_of_decode hd]

/-- Inside the program, a record placed at an offset has the program's own bytes before and after it. -/
theorem placeRecord_inside {old : List Byte} {pc : Nat} (new : List Byte) (h : pc ≤ old.length) :
    placeRecord old pc new = old.take pc ++ new ++ old.drop (pc + 6) := by
  rw [placeRecord, List.take_append_of_le_length h]

/-- Settles O6: both programs fetch the same instruction (`decode_encode`) behind the same opcode byte, which is all
that `exec` takes from a program (`exec_withProg`). -/
theorem paddingIsNeverRead : Obligations.PaddingIsNeverRead := by
  intro s t p i hs hp hd hstep
  have hinside : s.pc + 6 ≤ p.length := fetchRecord_length.1 (length_of_decode hd)
  rw [← placeRecord_inside (encode i) (by omega : s.pc ≤ p.length)]
  have hfetch : decode (fetchRecord (placeRecord p s.pc (encode i)) s.pc) = .instr i := by
    rw [fetchRecord_placeRecord p s.pc (encode_length i), decode_encode (decode_wellFormed hd)]
  have hbyte : (s.withProg (some (placeRecord p s.pc (encode i)))).progByte s.pc = s.progByte s.pc :=
    (progByte_of_decode (s := s.withProg _) rfl hfetch).trans (progByte_of_decode hp hd).symm
  have hexec : exec i s = .next t := (step_of_decode hs hp hd).symm.trans hstep
  calc step (s.withProg (some (placeRecord p s.pc (encode i))))
      = exec i (s.withProg (some (placeRecord p s.pc (encode i)))) := step_of_decode hs rfl hfetch
    _ = .next (t.withProg (some (placeRecord p s.pc (encode i)))) := exec_withProg hbyte hexec

end Sys2Proof.Machine
end

section
/-! The execution loop (40_execution_loop.md): the termination test, an illegal opcode, and the run that a step ends. -/

namespace Sys2Proof.Machine

variable {R : Type}

/-- R111: the termination test comes before the fetch. -/
theorem step_at_end {s : State} {prog : List Byte} (hs : s.status = .running) (hp : s.prog = some prog)
    (hend : prog.length ≤ s.pc) : step s = .next (s.withStatus .done) := by
  simp only [step, stepBy, hs, stepRunning, hp, if_pos hend]

/-- R110: inside the program the step is what the record at the pc decodes to. -/
theorem step_inside {s : State} {prog : List Byte} (hs : s.status = .running) (hp : s.prog = some prog)
    (hin : s.pc < prog.length) : step s = runDecoded exec s (decode (fetchRecord prog s.pc)) := by
  simp only [step, stepBy, hs, stepRunning, hp, if_neg (Nat.not_le.2 hin)]

/-- An instruction sets no status but a fault's (R113, R176): it never sets `DONE`. -/
theorem exec_status_cases {i : Instr} {s t : State} (h : exec i s = .next t) :
    t.status = s.status ∨ ∃ r, t.status = .fault r := by
  rcases exec_cases h with ⟨stack, mem, -, rfl⟩ | ⟨r, -, rfl⟩
  · exact .inl (complete_status s stack mem)
  · exact .inr ⟨_, takeFault_status s r⟩

/-- Inside the program no step sets `DONE` (R111). -/
theorem step_inside_not_done {s t : State} {prog : List Byte} (hp : s.prog = some prog) (hin : s.pc < prog.length)
    (h : step s = .next t) : t.status ≠ .done := by
  obtain ⟨hs, p, hp', hcase⟩ := step_cases h
  obtain rfl : prog = p := Option.some.inj (hp.symm.trans hp')
  rcases hcase with ⟨hend, -⟩ | ⟨-, i, -, hexec⟩ | ⟨-, op, -, rfl⟩
  · exact absurd hend (Nat.not_le.2 hin)
  · rcases exec_status_cases hexec with ht | ⟨r, ht⟩
    · simp [ht, hs]
    · simp [ht]
  · simp

/-- Settles O10: `step_at_end` on the one side of the program's end, `step_inside_not_done` on the other. -/
theorem terminationTest : Obligations.TerminationTest := by
  intro s p hs hp
  exact ⟨fun hend => step_at_end hs hp hend, fun hin t h => step_inside_not_done hp hin h⟩

/-- Settles O11: the two ways a step can leave the pc (`step_pc_cases`) are told apart by the status. -/
theorem pcIncrement : Obligations.PcIncrement := by
  intro s t h
  rcases step_pc_cases h with ⟨hrun, hpc⟩ | ⟨hend, hpc⟩
  · exact ⟨fun _ => hpc, fun hend => absurd hrun hend⟩
  · exact ⟨fun hrun => absurd hrun hend, fun _ => hpc⟩

/-- `ProgByte(pc)` (R14) is the first byte of the record fetched at the pc. -/
theorem progByte_of_fetchRecord {s : State R} {prog rest : List Byte} {b : Byte} (hp : s.prog = some prog)
    (hf : fetchRecord prog s.pc = b :: rest) : s.progByte s.pc = some b := by
  have hhead : (fetchRecord prog s.pc).head? = prog[s.pc]? := by
    simp [fetchRecord, List.head?_take, List.head?_drop]
  rw [State.progByte, State.progBytes, hp, Option.getD_some, ← hhead, hf, List.head?_cons]

/-- The record of an `IllegalOpcode` fault (R31): the byte at the pc, and neither an address nor a value. -/
theorem takeFault_illegalOpcode {s : State R} {b : Byte} (hb : s.progByte s.pc = some b) :
    takeFault s .illegalOpcode = s.faulted .illegalOpcode (some b) none none := by
  rw [← hb]
  rfl

/-- R115: a step that fetches an illegal opcode enters the fault `IllegalOpcode`. -/
theorem step_of_illegal {s : State} {prog : List Byte} {b0 b1 b2 b3 b4 b5 op : Byte} (hs : s.status = .running)
    (hp : s.prog = some prog) (hf : fetchRecord prog s.pc = [b0, b1, b2, b3, b4, b5])
    (hd : decode [b0, b1, b2, b3, b4, b5] = .illegal op) :
    step s = .next (s.faulted .illegalOpcode (some b0) none none) := by
  have hwhole : s.pc + 6 ≤ prog.length := fetchRecord_length.1 (by rw [hf]; rfl)
  calc step s
      = runDecoded exec s (decode (fetchRecord prog s.pc)) := step_inside hs hp (by omega)
    _ = .next (takeFault s .illegalOpcode) := by rw [hf, hd, runDecoded]
    _ = .next (s.faulted .illegalOpcode (some b0) none none) := by
        rw [takeFault_illegalOpcode (progByte_of_fetchRecord hp hf)]

/-- A run takes no step from a terminal state (R203). -/
theorem runSteps_of_not_running {one : State R → Answer R} {t : State R} (ht : t.status ≠ .running) (n : Nat) :
    runSteps one n t = .next t := by
  cases n with
  | zero => rfl
  | succ n => rw [runSteps, isRunning_eq_false.2 ht, if_neg Bool.false_ne_true]

/-- A run whose first step leaves `RUNNING` ends with that step: no later record is fetched. -/
theorem hostRun_of_last_step {s t : State} {prog : List Byte} (hs : s.status = .running) (hp : s.prog = some prog)
    (hstep : step s = .next t) (ht : t.status ≠ .running) : hostRun s = .next t := by
  simp only [hostRun, runBy, hp, runSteps, isRunning_iff.2 hs, if_true, hstep, runSteps_of_not_running ht]

/-- Settles O9: the decoder answers `illegal` for the byte (`decode_record`), so the step enters the fault
(`step_of_illegal`), and the run ends with that step. -/
theorem illegalOpcodeHalts : Obligations.IllegalOpcodeHalts := by
  intro s p b0 b1 b2 b3 b4 b5 hs hp hf h90 h1 h62 h137
  have hd : decode [b0, b1, b2, b3, b4, b5] = .illegal b0 := by
    rw [decode_record, if_neg h90, if_neg h1, if_neg h62, if_neg h137]
  have hstep : step s = .next (s.faulted .illegalOpcode (some b0) none none) := step_of_illegal hs hp hf hd
  exact ⟨hstep, hostRun_of_last_step hs hp hstep (by simp [State.faulted])⟩

end Sys2Proof.Machine
end

section
/-! LOAD_CONST (41_load_const.md): the push or the overflow (R131), and what sets it apart from the other three
instructions (R130). -/

namespace Sys2Proof.Machine

variable {R : Type}

/-- R178: a bounded stack has no room exactly when it holds its capacity. -/
theorem hasRoom_eq_false_iff {p : Params} {c : Nat} {stack : List (Value R)} (hc : p.stackCapacity = some c) :
    hasRoom p stack = false ↔ c ≤ stack.length := by
  simp [hasRoom, hc]

theorem exec_loadConst_of_room {b : Nat} {s : State} (h : hasRoom s.params s.stack = true) :
    exec (.loadConst b) s = .next (s.complete (.int (b : Int) :: s.stack) s.mem) := by
  rw [exec_eq_execWith, execWith, bodyWith, loadConstBody_eq_ok.2 ⟨h, rfl, rfl⟩, settle_ok]

theorem exec_loadConst_of_full {b : Nat} {s : State} (h : hasRoom s.params s.stack = false) :
    exec (.loadConst b) s = .next (takeFault s .stackOverflow) := by
  rw [exec_eq_execWith, execWith, bodyWith, loadConstBody_eq_error.2 ⟨h, rfl⟩, settle_error]

/-- R31, R176: the state a fault leaves, its record naming the opcode byte at the pc. -/
theorem takeFault_eq_faulted {s : State R} {b : Byte} (hb : s.progByte s.pc = some b) (r : Raised R) :
    takeFault s r = s.faulted r.kind (some b) r.addr r.value := by
  rw [← hb]
  rfl

/-- Settles O20: the bytes decode to LOAD_CONST of `beU16 hi lo`, which pushes where there is room and otherwise
enters the fault, whose record takes the opcode from the program. -/
theorem loadConstRule : Obligations.LoadConstRule := by
  intro s p hi lo x y z hs hp hf
  have hd : decode (fetchRecord p s.pc) = .instr (.loadConst (beU16 hi lo)) := by
    rw [fetchRecord, hf, decode_record]
    rfl
  have hstep : step s = exec (.loadConst (beU16 hi lo)) s := step_of_decode hs hp hd
  constructor
  · intro hroom
    rw [hstep, exec_loadConst_of_room (hasRoom_iff.2 hroom)]
    rfl
  · intro c hc hfull
    rw [hstep, exec_loadConst_of_full ((hasRoom_eq_false_iff hc).2 hfull),
      takeFault_eq_faulted (progByte_of_fetchRecord hp hf)]
    rfl

/-- The values an instruction leaves on the stack: no more than before, or LOAD_CONST's one more. -/
theorem bodyWith_stack_length {A : RealArith R} {i : Instr} {s : State R} {k : List (Value R)} {m : Memory R}
    (h : bodyWith A i s = .ok (k, m)) :
    k.length ≤ s.stack.length ∨ (∃ b, i = .loadConst b) ∧ k.length = s.stack.length + 1 := by
  cases i with
  | loadConst b =>
    obtain ⟨-, rfl, -⟩ := loadConstBody_eq_ok.1 h
    exact .inr ⟨⟨b, rfl⟩, rfl⟩
  | readMem b =>
    obtain ⟨n, rest, i, hstack, -, -, rfl, -⟩ := readMemBody_eq_ok h
    exact .inl (by simp [hstack])
  | writeMem =>
    obtain ⟨v, n, i, hstack, -, -⟩ := writeMemBody_eq_ok h
    exact .inl (by simp only [hstack, List.length_cons]; omega)
  | sqrt b =>
    obtain ⟨a, base, i, j, hstack, -, -, -, -⟩ := sqrtBody_eq_ok h
    exact .inl (by simp only [hstack, List.length_cons]; omega)

/-- `Int(n)` is on the stack `k` or in one of the first `size` cells of the memory `m`. -/
def HoldsInt (size : Nat) (k : List (Value R)) (m : Memory R) (n : Int) : Prop :=
  .int n ∈ k ∨ ∃ j < size, m.read j = .int n

/-- Popping values brings no integer in. -/
theorem HoldsInt.of_subset {size : Nat} {k k' : List (Value R)} {m : Memory R} {n : Int}
    (h : HoldsInt size k m n) (hsub : k ⊆ k') : HoldsInt size k' m n :=
  h.imp_left (hsub ·)

/-- Pushing a cell's value brings no integer in. -/
theorem HoldsInt.of_push_read {size i : Nat} {k : List (Value R)} {m : Memory R} {n : Int}
    (h : HoldsInt size (m.read i :: k) m n) (hi : i < size) : HoldsInt size k m n := by
  rcases h with hmem | hcell
  · rcases List.mem_cons.1 hmem with hread | hmem
    · exact .inr ⟨i, hi, hread.symm⟩
    · exact .inl hmem
  · exact .inr hcell

/-- A write brings in no integer but the value written. -/
theorem HoldsInt.of_write {size i : Nat} {k : List (Value R)} {m : Memory R} {v : Value R} {n : Int}
    (h : HoldsInt size k (m.write i v) n) (hm : m.wf) : v = .int n ∨ HoldsInt size k m n := by
  rcases h with hmem | ⟨j, hj, hread⟩
  · exact .inr (.inl hmem)
  · rw [read_write hm] at hread
    split at hread
    · exact .inl hread
    · exact .inr (.inr ⟨j, hj, hread⟩)

/-- R130: what READ_MEM pushes was in a cell, what WRITE_MEM stores was on the stack, and what SQRT stores is a real. -/
theorem HoldsInt.of_bodyWith {A : RealArith R} {i : Instr} {s : State R} {k : List (Value R)} {m : Memory R} {n : Int}
    (h : HoldsInt s.params.memSize k m n) (hm : s.mem.wf) (hbody : bodyWith A i s = .ok (k, m))
    (hi : ∀ b, i ≠ .loadConst b) : HoldsInt s.params.memSize s.stack s.mem n := by
  cases i with
  | loadConst b => exact absurd rfl (hi b)
  | readMem b =>
    obtain ⟨a, rest, i, hstack, hindex, -, rfl, rfl⟩ := readMemBody_eq_ok hbody
    obtain ⟨-, -, -, hinside⟩ := index_eq_ok hindex
    exact (h.of_push_read hinside).of_subset (by simp [hstack])
  | writeMem =>
    obtain ⟨v, a, i, hstack, -, rfl⟩ := writeMemBody_eq_ok hbody
    rcases h.of_write hm with rfl | hheld
    · exact .inl (by simp [hstack])
    · exact hheld.of_subset (by simp [hstack])
  | sqrt b =>
    obtain ⟨a, base, i, j, hstack, -, -, -, rfl⟩ := sqrtBody_eq_ok hbody
    rcases h.of_write hm with hreal | hheld
    · cases hreal
    · exact hheld.of_subset (by simp [hstack])

/-- Settles O25: a completed instruction is its body (`bodyWith_stack_length`, `HoldsInt.of_bodyWith`), and a fault
leaves stack and memory as they were. -/
theorem onlyLoadConstGrowsOrCreates : Obligations.OnlyLoadConstGrowsOrCreates := by
  intro i s t hm h
  rcases exec_cases h with ⟨k, m, hbody, rfl⟩ | ⟨r, -, rfl⟩
  · constructor
    · intro hdeeper
      exact (bodyWith_stack_length hbody).resolve_left (Nat.not_le.2 hdeeper)
    · intro hi n hheld
      exact HoldsInt.of_bodyWith hheld hm hbody hi
  · exact ⟨fun hdeeper => absurd hdeeper (Nat.lt_irrefl _), fun _ _ hheld => hheld⟩

end Sys2Proof.Machine
end

section
/-! READ_MEM and WRITE_MEM (42_memory_transfer.md): the transfer (R143, R147), and the first fault in the order
underflow, type, bound (R141, R145). -/

namespace Sys2Proof.Machine

variable {R : Type}

/-- R110, R176: where the bytes at the pc decode to an instruction that faults, the step leaves that fault, its record
naming the instruction's opcode. -/
theorem step_of_exec_fault {s : State} {prog : List Byte} {i : Instr} {r : Raised} (hs : s.status = .running)
    (hp : s.prog = some prog) (hd : decode (fetchRecord prog s.pc) = .instr i)
    (hexec : exec i s = .next (takeFault s r)) :
    step s = .next (s.faulted r.kind (some i.opcode) r.addr r.value) := by
  rw [step_of_decode hs hp hd, hexec, takeFault_eq_faulted (progByte_of_decode hp hd)]

/-- A pop makes room for one push: below the top of a stack within its capacity there is room. -/
theorem hasRoom_of_stackFits {s : State R} {v : Value R} {rest : List (Value R)} (hstack : s.stack = v :: rest)
    (hfits : s.stackFits = true) : hasRoom s.params rest = true := by
  refine hasRoom_iff.2 fun c hc => ?_
  have hle : s.stack.length ≤ c := stackFits_iff.1 hfits c hc
  rw [hstack, List.length_cons] at hle
  omega

theorem exec_readMem_of_empty {b : Nat} {s : State} (hstack : s.stack = []) :
    exec (.readMem b) s = .next (takeFault s .stackUnderflow) := by
  rw [exec_eq_execWith, execWith, bodyWith, readMemBody, hstack, pop_nil, bind_error, settle_error]

theorem exec_readMem_of_index_error {b : Nat} {s : State} {a : Value} {rest : List Value} {r : Raised}
    (hstack : s.stack = a :: rest) (hindex : index s.params a b = .error r) :
    exec (.readMem b) s = .next (takeFault s r) := by
  rw [exec_eq_execWith, execWith, bodyWith, readMemBody, hstack, pop_cons, bind_ok]
  simp only [hindex, bind_error, settle_error]

theorem exec_readMem_of_index_ok {b i : Nat} {s : State} {a : Value} {rest : List Value}
    (hstack : s.stack = a :: rest) (hindex : index s.params a b = .ok i) (hroom : hasRoom s.params rest = true) :
    exec (.readMem b) s = .next (s.complete (s.mem.read i :: rest) s.mem) := by
  rw [exec_eq_execWith, execWith, bodyWith, readMemBody, hstack, pop_cons, bind_ok]
  simp only [hindex, bind_ok, push_eq_ok.2 ⟨hroom, rfl⟩, pure, Except.pure, settle_ok]

/-- Settles O16: the index is the cell, and the popped base leaves room for its value. -/
theorem readMemPushesCell : Obligations.ReadMemPushesCell := by
  intro b s n rest hstack hlow hhigh hfits
  exact exec_readMem_of_index_ok hstack (index_int_inside hlow hhigh) (hasRoom_of_stackFits hstack hfits)

/-- Settles O21: the bytes decode to READ_MEM of their second, which faults on an empty stack and on what `index`
refuses, and otherwise loads (`readMemPushesCell`). -/
theorem readMemRule : Obligations.ReadMemRule := by
  intro s p b w x y z hs hp hf
  have hd : decode (fetchRecord p s.pc) = .instr (.readMem b.toNat) := by
    rw [fetchRecord, hf, decode_record]
    rfl
  refine ⟨fun hempty => ?_, fun r rest hstack => ?_, fun n rest hstack hfits => ?_⟩
  · exact step_of_exec_fault hs hp hd (exec_readMem_of_empty hempty)
  · exact step_of_exec_fault hs hp hd (exec_readMem_of_index_error hstack (index_real ..))
  · by_cases hcell : 0 ≤ n + (b.toNat : Int) ∧ n + (b.toNat : Int) < s.params.memSize
    · obtain ⟨hlow, hhigh⟩ := hcell
      rw [if_pos ⟨hlow, hhigh⟩, step_of_decode hs hp hd]
      exact readMemPushesCell b.toNat s n rest hstack hlow hhigh hfits
    · rw [if_neg hcell]
      exact step_of_exec_fault hs hp hd (exec_readMem_of_index_error hstack (index_int_outside hcell))

/-- The address of WRITE_MEM has no offset (R145). -/
theorem index_int_zero (p : Params) (n : Int) :
    index p (.int n : Value R) 0 =
      if 0 ≤ n ∧ n < p.memSize then .ok n.toNat else .error (.addressOutOfBounds n) := by
  simp [index]

theorem exec_writeMem_of_short {s : State} (hshort : s.stack.length < 2) :
    exec .writeMem s = .next (takeFault s .stackUnderflow) := by
  rw [exec_eq_execWith, execWith, bodyWith, writeMemBody]
  rcases hstack : s.stack with _ | ⟨v, _ | ⟨a, rest⟩⟩
  · rw [pop_nil, bind_error, settle_error]
  · simp only [pop_cons, bind_ok, pop_nil, bind_error, settle_error]
  · simp [hstack] at hshort

theorem exec_writeMem_of_index_error {s : State} {v a : Value} {rest : List Value} {r : Raised}
    (hstack : s.stack = v :: a :: rest) (hindex : index s.params a 0 = .error r) :
    exec .writeMem s = .next (takeFault s r) := by
  rw [exec_eq_execWith, execWith, bodyWith, writeMemBody, hstack]
  simp only [pop_cons, bind_ok, hindex, bind_error, settle_error]

theorem exec_writeMem_of_index_ok {i : Nat} {s : State} {v a : Value} {rest : List Value}
    (hstack : s.stack = v :: a :: rest) (hindex : index s.params a 0 = .ok i) :
    exec .writeMem s = .next (s.complete rest (s.mem.write i v)) := by
  rw [exec_eq_execWith, execWith, bodyWith, writeMemBody, hstack]
  simp only [pop_cons, bind_ok, hindex, pure, Except.pure, settle_ok]

/-- R147: the second value popped is the cell's address, the first the value stored. -/
theorem exec_writeMem_of_cell {s : State} {v : Value} {n : Int} {rest : List Value}
    (hstack : s.stack = v :: .int n :: rest) (hcell : 0 ≤ n ∧ n < s.params.memSize) :
    exec .writeMem s = .next (s.complete rest (s.mem.write n.toNat v)) :=
  exec_writeMem_of_index_ok hstack (by rw [index_int_zero, if_pos hcell])

/-- Settles O17: the store, and what a canonical memory reads after it (`read_write`). -/
theorem writeMemStores : Obligations.WriteMemStores := by
  intro s v n rest hm hstack hlow hhigh
  refine ⟨exec_writeMem_of_cell hstack ⟨hlow, hhigh⟩, ?_, fun j hj => ?_⟩
  · rw [read_write hm, if_pos rfl]
  · rw [read_write hm, if_neg hj]

/-- Settles O22: the bytes decode to WRITE_MEM, which faults on fewer than two values and on what `index` refuses, and
otherwise stores. -/
theorem writeMemRule : Obligations.WriteMemRule := by
  intro s p b w x y z hs hp hf
  have hd : decode (fetchRecord p s.pc) = .instr .writeMem := by
    rw [fetchRecord, hf, decode_record]
    rfl
  refine ⟨fun hshort => ?_, fun v r rest hstack => ?_, fun v n rest hstack => ?_⟩
  · exact step_of_exec_fault hs hp hd (exec_writeMem_of_short hshort)
  · exact step_of_exec_fault hs hp hd (exec_writeMem_of_index_error hstack (index_real ..))
  · by_cases hcell : 0 ≤ n ∧ n < s.params.memSize
    · rw [if_pos hcell, step_of_decode hs hp hd]
      exact exec_writeMem_of_cell hstack hcell
    · rw [if_neg hcell]
      have hindex : index s.params (.int n : Value) 0 = .error (.addressOutOfBounds n) := by
        rw [index_int_zero, if_neg hcell]
      exact step_of_exec_fault hs hp hd (exec_writeMem_of_index_error hstack hindex)

end Sys2Proof.Machine
end

section
/-! SQRT (43_sqrt.md): the root of the source cell, stored at base plus offset (R163, R166), also where both are one
cell (R165). -/

namespace Sys2Proof.Machine

variable {R : Type}

/-- R161: two popped values that index cells, the source's value not negative, make SQRT complete under every `REAL` and
`SQRT_FN`, the root stored at the destination. -/
theorem execWith_sqrt_of_index_ok {A : RealArith R} {b i j : Nat} {s : State R} {a base : Value R}
    {rest : List (Value R)} (hstack : s.stack = a :: base :: rest) (hsource : index s.params a 0 = .ok i)
    (hsign : (s.mem.read i).isNegativeBy A.isNegative = false) (hdest : index s.params base b = .ok j) :
    execWith A (.sqrt b) s =
      .next (s.complete rest (s.mem.write j (.real (A.sqrtFn (s.mem.read i))))) := by
  rw [execWith, bodyWith, sqrtBody, hstack]
  simp only [pop_cons, bind_ok, hsource, hsign, hdest, Bool.false_eq_true, if_false, pure, Except.pure, settle_ok]

/-- R163, R166: the first value popped is the source's cell, the second with the offset the destination's. -/
theorem execWith_sqrt_of_cells {A : RealArith R} {b : Nat} {s : State R} {a base : Int} {rest : List (Value R)}
    (hstack : s.stack = .int a :: .int base :: rest) (hsource : 0 ≤ a ∧ a < s.params.memSize)
    (hsign : (s.mem.read a.toNat).isNegativeBy A.isNegative = false)
    (hdest : 0 ≤ base + b ∧ base + b < s.params.memSize) :
    execWith A (.sqrt b) s =
      .next (s.complete rest (s.mem.write (base + b).toNat (.real (A.sqrtFn (s.mem.read a.toNat))))) := by
  have hi : index s.params (.int a : Value R) 0 = .ok a.toNat := by rw [index_int_zero, if_pos hsource]
  exact execWith_sqrt_of_index_ok hstack hi hsign (index_int_inside hdest.1 hdest.2)

/-- Settles O18: the completion holds under every square-root function, so also under the default; the cells after it
are those of a write to a canonical memory (`read_write`). -/
theorem sqrtStoresRoot : Obligations.SqrtStoresRoot := by
  intro b s a base rest hm hstack hlow hhigh hsign hdlow hdhigh
  refine ⟨?_, fun f => ⟨?_, ?_, fun j hj => ?_⟩⟩
  · rw [exec_eq_execWith]
    exact execWith_sqrt_of_cells hstack ⟨hlow, hhigh⟩ hsign ⟨hdlow, hdhigh⟩
  · exact execWith_sqrt_of_cells (A := { RealArith.default with sqrtFn := f }) hstack ⟨hlow, hhigh⟩ hsign
      ⟨hdlow, hdhigh⟩
  · rw [read_write hm, if_pos rfl]
  · rw [read_write hm, if_neg hj]

/-- Settles O19: the destination of `sqrtStoresRoot` is the source, and the root stored is that of the value read before
the write. -/
theorem sqrtInPlace : Obligations.SqrtInPlace := by
  intro b s a base rest hm hstack hlow hhigh hsame hsign
  obtain ⟨hexec, -⟩ :=
    sqrtStoresRoot b s a base rest hm hstack hlow hhigh hsign (hsame ▸ hlow) (hsame ▸ hhigh)
  refine ⟨_, hexec, ?_⟩
  rw [hsame, read_write hm, if_pos rfl]

end Sys2Proof.Machine
end

section
/-! The reads of the host (70_reset_and_hazards.md section 1): the cells `read_result` lists (R205). -/

namespace Sys2Proof.Machine

variable {R : Type}

@[simp] theorem cellsFrom_length (m : Memory R) (first n : Nat) : (cellsFrom m first n).length = n := by
  induction n generalizing first with
  | zero => rfl
  | succ n ih => simp [cellsFrom, ih]

/-- R205: the `k`-th listed pair is the `k`-th index from `first` on, with its cell. -/
theorem cellsFrom_getElem? (m : Memory R) {first n k : Nat} (hk : k < n) :
    (cellsFrom m first n)[k]? = some (first + k, m.read (first + k)) := by
  induction n generalizing first k with
  | zero => exact absurd hk (Nat.not_lt_zero k)
  | succ n ih =>
    cases k with
    | zero => rfl
    | succ k =>
      have hindex : first + 1 + k = first + (k + 1) := by omega
      rw [cellsFrom, List.getElem?_cons_succ, ih (Nat.lt_of_succ_lt_succ hk), hindex]

/-- R205 to R207: in a terminal state the bounds alone decide between the cells and a range error. -/
theorem hostReadResult_of_not_running {first last : Int} {s : State R} (hs : s.status ≠ .running) :
    hostReadResult first last s =
      if 0 ≤ first ∧ first ≤ last ∧ last < (s.params.memSize : Int) then
        .ok (cellsFrom s.mem first.toNat (last - first + 1).toNat)
      else .rangeError := by
  rw [hostReadResult, if_neg (mt isRunning_iff.1 hs)]

/-- Settles O41: inside the bounds the reply is `cellsFrom`, of which `cellsFrom_length` and `cellsFrom_getElem?` say
the length and each pair. -/
theorem readResultReturnsSlice : Obligations.ReadResultReturnsSlice := by
  intro s first last hs hlow hle hhigh
  refine ⟨cellsFrom s.mem first.toNat (last - first + 1).toNat, ?_, ?_, fun k hk => ?_⟩
  · rw [hostReadResult_of_not_running hs, if_pos ⟨hlow, hle, hhigh⟩]
  · rw [cellsFrom_length]
    omega
  · rw [cellsFrom_length] at hk
    exact cellsFrom_getElem? s.mem hk

end Sys2Proof.Machine
end

section
/-! Records, both ways round (30_encoding.md sections 1 and 2): the table's 48-bit word (R71), the round trip of a
record, and the step that executes one (R110). -/

namespace Sys2Proof.Machine

variable {R : Type}

/-- Settles O4: `decode_encode`, over every operand a field admits. -/
theorem decodeOfEncode : Obligations.DecodeOfEncode := fun _ h => decode_encode h

/-- The first byte of an F16 operand (R75). -/
theorem ofNat_beU16_div (hi lo : Byte) : BitVec.ofNat 8 (beU16 hi lo / 256) = hi := by
  have hlo : lo.toNat < 256 := lo.isLt
  apply BitVec.eq_of_toNat_eq
  rw [toNat_highByte (beU16_le hi lo), beU16]
  omega

/-- The second byte of an F16 operand (R75). -/
theorem ofNat_beU16_mod (hi lo : Byte) : BitVec.ofNat 8 (beU16 hi lo % 256) = lo := by
  have hlo : lo.toNat < 256 := lo.isLt
  apply BitVec.eq_of_toNat_eq
  rw [toNat_byte (by omega), beU16]
  omega

/-- The byte of an F8 operand (R76). -/
theorem ofNat_toNat_byte (b : Byte) : BitVec.ofNat 8 b.toNat = b :=
  BitVec.eq_of_toNat_eq (toNat_byte (Nat.le_of_lt_succ b.isLt))

/-- Settles O5: the decoder answers each instruction for its own opcode byte (`decode_eq_instr`), and the operand it
reads has the operand bytes as its bytes. -/
theorem encodeOfDecode : Obligations.EncodeOfDecode := by
  intro b0 b1 b2 b3 b4 b5 i h
  obtain ⟨c0, c1, c2, c3, c4, c5, hbytes, hcases⟩ := decode_eq_instr h
  simp only [List.cons.injEq, and_true] at hbytes
  obtain ⟨rfl, rfl, rfl, rfl, rfl, rfl⟩ := hbytes
  rcases hcases with ⟨rfl, rfl⟩ | ⟨rfl, rfl⟩ | ⟨rfl, rfl⟩ | ⟨rfl, rfl⟩
  · simp only [encode, ofNat_beU16_div, ofNat_beU16_mod]
  · simp only [encode, ofNat_toNat_byte]
  · rfl
  · simp only [encode, ofNat_toNat_byte]

/-- The instruction of the table's word is what its record decodes to. -/
theorem decodeTableWord_eq_some {n w : Nat} {i : Instr} :
    decodeTableWord n w = some i ↔ decode (tableRecord n w) = .instr i := by
  unfold decodeTableWord
  cases decode (tableRecord n w) <;> simp

/-- R71: the bits of the table's word as the bytes of its record, less the padding of bytes 3 to 5. -/
theorem tableRecord_fields (w : Nat) : ∃ b0 b1 b2 b3 b4 b5 : Byte,
    tableRecord 48 w = [b0, b1, b2, b3, b4, b5] ∧ b0.toNat = w / 2 ^ 40 % 256 ∧ b1.toNat = w / 2 ^ 32 % 256 ∧
      beU16 b1 b2 = w / 2 ^ 24 % 65536 := by
  refine ⟨_, _, _, _, _, _, rfl, ?_, ?_, ?_⟩
  · rw [BitVec.toNat_ofNat]
    omega
  · rw [BitVec.toNat_ofNat]
    omega
  · rw [beU16, BitVec.toNat_ofNat, BitVec.toNat_ofNat]
    omega

/-- Settles O3: the fields of the word are the record's bytes (`tableRecord_fields`), on which the decoder is the case
distinction of `decode_record`. -/
theorem tableWordFields : Obligations.TableWordFields := by
  intro w
  obtain ⟨b0, b1, b2, b3, b4, b5, hrec, h0, h1, h2⟩ := tableRecord_fields w
  rw [decodeTableWord, hrec, decode_record, h0, h1, h2]
  split_ifs <;> rfl

/-- Settles O2: the opcode byte of each record selects its branch of `decode_record`. -/
theorem sampleRecordsDecode : Obligations.SampleRecordsDecode := by
  refine ⟨?_, ?_, ?_, ?_, ?_⟩ <;> rw [decode_record] <;> rfl

/-- R110 under every meaning `run` of an instruction: where the bytes at the pc decode to one, the step is its
meaning. -/
theorem stepBy_of_decode {run : Instr → State R → Answer R} {s : State R} {prog : List Byte} {i : Instr}
    (hs : s.status = .running) (hp : s.prog = some prog) (hd : decode (fetchRecord prog s.pc) = .instr i) :
    stepBy run s = run i s := by
  have hinside : s.pc + 6 ≤ prog.length := fetchRecord_length.1 (length_of_decode hd)
  simp only [stepBy, hs, stepRunning, hp, if_neg (show ¬ prog.length ≤ s.pc by omega), hd, runDecoded]

/-- Settles O7: the bytes at the pc are those the step fetches. -/
theorem stepRunsDecodedInstruction : Obligations.StepRunsDecodedInstruction :=
  fun _ _ _ hs hp hd => step_of_decode hs hp hd

/-- Settles O8: a fetch reads the record just placed (`fetchRecord_placeRecord`). -/
theorem fetchWordIsExecutedNext : Obligations.FetchWordIsExecutedNext := by
  intro s w i h
  refine step_of_decode (withFetchWord_status s 48 w) (withFetchWord_prog s 48 w) ?_
  rw [withFetchWord_pc, fetchRecord_placeRecord _ _ rfl]
  exact decodeTableWord_eq_some.1 h

end Sys2Proof.Machine
end

section
/-! The ends of an instruction (60_exceptions.md section 2): completed or faulted, and what it takes from
the program. -/

namespace Sys2Proof.Machine

variable {R : Type}

/-- What `index` raises is one of the two address faults (R174, R175). -/
theorem index_error_kind {p : Params} {v : Value R} {off : Nat} {r : Raised R} (h : index p v off = .error r) :
    r.kind = .addressNotInteger ∨ r.kind = .addressOutOfBounds := by
  rcases index_eq_error h with ⟨q, -, rfl⟩ | ⟨n, -, -, rfl⟩
  · exact .inl rfl
  · exact .inr rfl

/-- An index's fault is neither an illegal opcode nor a domain fault. -/
theorem index_error_kind_ne {p : Params} {v : Value R} {off : Nat} {r : Raised R} (h : index p v off = .error r) :
    r.kind ≠ .illegalOpcode ∧ r.kind ≠ .sqrtDomain := by
  rcases index_error_kind h with hkind | hkind <;> simp [hkind]

/-- Of `IllegalOpcode` and `SqrtDomain` an instruction raises the second alone, for a cell that holds a negative value
(R172, R177). -/
theorem bodyWith_error_kind {A : RealArith R} {i : Instr} {s : State R} {r : Raised R}
    (h : bodyWith A i s = .error r) :
    (r.kind ≠ .illegalOpcode ∧ r.kind ≠ .sqrtDomain) ∨
      ∃ j, (s.mem.read j).isNegativeBy A.isNegative = true ∧ r = .sqrtDomain (s.mem.read j) := by
  cases i with
  | loadConst b =>
    obtain ⟨-, rfl⟩ := loadConstBody_eq_error.1 h
    exact .inl ⟨nofun, nofun⟩
  | readMem b =>
    rcases readMemBody_eq_error h with ⟨-, rfl⟩ | ⟨a, rest, -, hindex⟩ | ⟨a, rest, -, -, rfl⟩
    · exact .inl ⟨nofun, nofun⟩
    · exact .inl (index_error_kind_ne hindex)
    · exact .inl ⟨nofun, nofun⟩
  | writeMem =>
    rcases writeMemBody_eq_error h with ⟨-, rfl⟩ | ⟨v, a, rest, -, hindex⟩
    · exact .inl ⟨nofun, nofun⟩
    · exact .inl (index_error_kind_ne hindex)
  | sqrt b =>
    rcases sqrtBody_eq_error h with
      ⟨-, rfl⟩ | ⟨a, below, -, hindex⟩ | ⟨a, base, rest, j, -, -, ⟨hneg, rfl⟩ | ⟨-, hindex⟩⟩
    · exact .inl ⟨nofun, nofun⟩
    · exact .inl (index_error_kind_ne hindex)
    · exact .inr ⟨j, hneg, rfl⟩
    · exact .inl (index_error_kind_ne hindex)

theorem bodyWith_not_illegal {A : RealArith R} {i : Instr} {s : State R} {r : Raised R}
    (h : bodyWith A i s = .error r) : r.kind ≠ .illegalOpcode := by
  rcases bodyWith_error_kind h with ⟨hill, -⟩ | ⟨j, -, rfl⟩
  · exact hill
  · exact nofun

theorem exec_of_body_ok {i : Instr} {s : State} {k : List Value} {m : Memory}
    (h : bodyWith RealArith.default i s = .ok (k, m)) : exec i s = .next (s.complete k m) := by
  rw [exec_eq_execWith, execWith, h, settle_ok]

theorem exec_of_body_error {i : Instr} {s : State} {r : Raised}
    (h : bodyWith RealArith.default i s = .error r) : exec i s = .next (takeFault s r) := by
  rw [exec_eq_execWith, execWith, h, settle_error]

/-- Settles O24: the body's answer decides between the completed instruction and the fault entered, whose record is
that of R31. -/
theorem execCompletesOrFaultsPrecisely : Obligations.ExecCompletesOrFaultsPrecisely := by
  intro i s
  rcases hbody : bodyWith RealArith.default i s with r | ⟨k, m⟩
  · exact .inr ⟨faultRecord s r, exec_of_body_error hbody, rfl, rfl, faultRecord_wellFormed s r,
      bodyWith_not_illegal hbody⟩
  · exact .inl ⟨k, m, exec_of_body_ok hbody⟩

/-- Settles O28: each of the three forms of a next state (`step_shape`) has the program and the parameters as they
were. -/
theorem stepNeverWritesProgram : Obligations.StepNeverWritesProgram := by
  intro s t h
  rcases step_shape h with rfl | ⟨k, m, rfl⟩ | ⟨r, rfl⟩
  · exact ⟨rfl, rfl⟩
  · exact ⟨rfl, rfl⟩
  · exact ⟨rfl, rfl⟩

/-- Settles O29: a state left running is a completed instruction, whose body does not read the program
(`bodyWith_withProg`). -/
theorem programIsNotData : Obligations.ProgramIsNotData := by
  intro i s t other _ h ht
  rcases exec_cases h with ⟨k, m, hbody, rfl⟩ | ⟨r, -, rfl⟩
  · exact exec_of_body_ok ((bodyWith_withProg _ i s other).trans hbody)
  · rw [takeFault_status] at ht
    cases ht

end Sys2Proof.Machine
end

section
/-! The data memory over a sequence of writes (20_memory.md section 7), and its canonical form (section 1). -/

namespace Sys2Proof.Machine

variable {R : Type}

/-- The memory after a sequence of writes. -/
def Memory.writeAll (m : Memory R) (writes : List (Nat × Value R)) : Memory R :=
  writes.foldl (fun m w => m.write w.1 w.2) m

/-- R62 from any canonical memory: a cell reads as its last write, or as before where there is none. -/
theorem read_writeAll {m : Memory R} (hm : m.wf) (writes : List (Nat × Value R)) (i : Nat) :
    (m.writeAll writes).read i =
      (((writes.filter fun w => w.1 == i).getLast?).map fun w => w.2).getD (m.read i) := by
  induction writes generalizing m with
  | nil => rfl
  | cons w writes ih =>
    have hrest : (m.writeAll (w :: writes)).read i = ((m.write w.1 w.2).writeAll writes).read i := rfl
    rw [hrest, ih (write_wf hm w.1 w.2), read_write hm]
    by_cases hw : w.1 = i
    · rw [List.filter_cons_of_pos (by simpa using hw), List.getLast?_cons, if_pos hw.symm]
      cases (writes.filter fun w => w.1 == i).getLast? <;> rfl
    · rw [List.filter_cons_of_neg (by simpa using hw), if_neg (Ne.symm hw)]

/-- Settles O26: `read_writeAll` from the reset memory, whose cells all hold `Int(0)`. -/
theorem readsReturnLastWrite : Obligations.ReadsReturnLastWrite :=
  fun writes i => read_writeAll wf_nil writes i

/-- A canonical memory reads another value than `Int(0)` at the first index it lists. -/
theorem read_head_ne_zero {a : Nat} {v : Value R} {m : Memory R} (hm : Memory.wf ((a, v) :: m)) :
    Memory.read ((a, v) :: m) a ≠ Value.zero := by
  obtain ⟨-, hv, -⟩ := wf_cons.1 hm
  rwa [read_cons, if_pos rfl]

/-- The first index of a canonical memory is at most that of another which reads the same: a cell below every listed
index holds `Int(0)`. -/
theorem head_le_of_read_eq {a a' : Nat} {v v' : Value R} {m m' : Memory R} (hm : Memory.wf ((a, v) :: m))
    (hm' : Memory.wf ((a', v') :: m'))
    (h : ∀ i, Memory.read ((a, v) :: m) i = Memory.read ((a', v') :: m') i) : a ≤ a' := by
  by_contra hlt
  obtain ⟨hlow, -, -⟩ := wf_cons.1 hm
  refine read_head_ne_zero hm' ?_
  rw [← h a']
  refine read_below fun c hc => ?_
  rcases List.mem_cons.1 hc with rfl | hc
  · exact Nat.lt_of_not_le hlt
  · exact (Nat.lt_of_not_le hlt).trans (hlow c hc)

/-- The canonical form has one datum for each content of the cells. -/
theorem eq_of_read_eq {m m' : Memory R} (hm : m.wf) (hm' : m'.wf) (h : ∀ i, m.read i = m'.read i) : m = m' := by
  induction m generalizing m' with
  | nil =>
    cases m' with
    | nil => rfl
    | cons c' m' => exact absurd (h c'.1).symm (read_head_ne_zero hm')
  | cons c m ih =>
    obtain ⟨a, v⟩ := c
    cases m' with
    | nil => exact absurd (h a) (read_head_ne_zero hm)
    | cons c' m' =>
      obtain ⟨a', v'⟩ := c'
      obtain rfl : a = a' :=
        le_antisymm (head_le_of_read_eq hm hm' h) (head_le_of_read_eq hm' hm fun i => (h i).symm)
      obtain ⟨hlow, -, hwf⟩ := wf_cons.1 hm
      obtain ⟨hlow', -, hwf'⟩ := wf_cons.1 hm'
      obtain rfl : v = v' := by simpa using h a
      rw [ih hwf hwf' fun i => ?_]
      by_cases hi : a = i
      · subst hi
        rw [read_below hlow, read_below hlow']
      · simpa [hi] using h i

/-- Settles O27: `eq_of_read_eq` over the default `REAL`. -/
theorem equalCellsEqualMemories : Obligations.EqualCellsEqualMemories := fun _ _ hm hm' h => eq_of_read_eq hm hm' h

end Sys2Proof.Machine
end

section
/-! SQRT's faults, in the order of its steps (43_sqrt.md, R161), and its completion under every `REAL` and `SQRT_FN`. -/

namespace Sys2Proof.Machine

variable {R : Type}

theorem sqrtBody_of_empty {A : RealArith R} {b : Nat} {s : State R} (hstack : s.stack = []) :
    sqrtBody A b s = .error .stackUnderflow := by
  rw [sqrtBody, hstack, pop_nil, bind_error]

theorem sqrtBody_of_source_error {A : RealArith R} {b : Nat} {s : State R} {a : Value R} {below : List (Value R)}
    {r : Raised R} (hstack : s.stack = a :: below) (hsource : index s.params a 0 = .error r) :
    sqrtBody A b s = .error r := by
  rw [sqrtBody, hstack]
  simp only [pop_cons, bind_ok, hsource, bind_error]

theorem sqrtBody_of_single {A : RealArith R} {b i : Nat} {s : State R} {a : Value R} (hstack : s.stack = [a])
    (hsource : index s.params a 0 = .ok i) : sqrtBody A b s = .error .stackUnderflow := by
  rw [sqrtBody, hstack]
  simp only [pop_cons, bind_ok, hsource, pop_nil, bind_error]

/-- The domain check comes after the second pop and before the destination's index (decision D10). -/
theorem sqrtBody_of_negative {A : RealArith R} {b i : Nat} {s : State R} {a base : Value R} {rest : List (Value R)}
    (hstack : s.stack = a :: base :: rest) (hsource : index s.params a 0 = .ok i)
    (hsign : (s.mem.read i).isNegativeBy A.isNegative = true) :
    sqrtBody A b s = .error (.sqrtDomain (s.mem.read i)) := by
  rw [sqrtBody, hstack]
  simp only [pop_cons, bind_ok, hsource, hsign, if_true, bind_error]

theorem sqrtBody_of_dest_error {A : RealArith R} {b i : Nat} {s : State R} {a base : Value R}
    {rest : List (Value R)} {r : Raised R} (hstack : s.stack = a :: base :: rest)
    (hsource : index s.params a 0 = .ok i) (hsign : (s.mem.read i).isNegativeBy A.isNegative = false)
    (hdest : index s.params base b = .error r) : sqrtBody A b s = .error r := by
  rw [sqrtBody, hstack]
  simp only [pop_cons, bind_ok, hsource, hsign, Bool.false_eq_true, if_false, pure, Except.pure, hdest, bind_error]

/-- R79 on the fetched bytes: the record of opcode 0x89 is SQRT of its second byte. -/
theorem decode_fetch_sqrt {prog : List Byte} {pc : Nat} {b w x y z : Byte}
    (hf : (prog.drop pc).take 6 = [0x89#8, b, w, x, y, z]) :
    decode (fetchRecord prog pc) = .instr (.sqrt b.toNat) := by
  rw [fetchRecord, hf, decode_record]
  rfl

/-- Settles O23: each clause is the case of SQRT's body that its hypotheses select, entered as a fault by the step. -/
theorem sqrtFaultOrder : Obligations.SqrtFaultOrder := by
  intro s p b w x y z hs hp hf
  have hfault : ∀ r : Raised, sqrtBody RealArith.default b.toNat s = .error r →
      step s = .next (s.faulted r.kind (some 0x89#8) r.addr r.value) :=
    fun r hbody => step_of_exec_fault hs hp (decode_fetch_sqrt hf) (exec_of_body_error hbody)
  refine ⟨fun hstack => ?_, fun r below hstack => ?_, fun a below hstack hout => ?_,
    fun a below hstack hlow hhigh => ?_⟩
  · exact hfault _ (sqrtBody_of_empty hstack)
  · exact hfault _ (sqrtBody_of_source_error hstack (index_real ..))
  · exact hfault (.addressOutOfBounds a)
      (sqrtBody_of_source_error hstack (by rw [index_int_zero, if_neg hout]))
  · have hsource : index s.params (.int a : Value) 0 = .ok a.toNat := by
      rw [index_int_zero, if_pos ⟨hlow, hhigh⟩]
    refine ⟨?_, ?_, ?_, ?_⟩
    · rintro rfl
      exact hfault _ (sqrtBody_of_single hstack hsource)
    · rintro base rest rfl hsign
      exact hfault _ (sqrtBody_of_negative hstack hsource hsign)
    · rintro r rest rfl hsign
      exact hfault _ (sqrtBody_of_dest_error hstack hsource hsign (index_real ..))
    · rintro n rest rfl hsign hout
      exact hfault _ (sqrtBody_of_dest_error hstack hsource hsign (index_int_outside hout))

/-- Settles O49: the step is SQRT's completion (`execWith_sqrt_of_cells`), and the new memory reads as after one write
(`read_write`). -/
theorem sqrtRuleForEveryReal : Obligations.SqrtRuleForEveryReal := by
  intro R A s p b w x y z a base rest hs hp hf hm hstack hlow hhigh hsign hdlow hdhigh
  refine ⟨s.mem.write (base + (b.toNat : Int)).toNat (.real (A.sqrtFn (s.mem.read a.toNat))), ?_, ?_, fun j hj => ?_⟩
  · calc stepWith A s
        = execWith A (.sqrt b.toNat) s := stepBy_of_decode hs hp (decode_fetch_sqrt hf)
      _ = _ := execWith_sqrt_of_cells hstack ⟨hlow, hhigh⟩ hsign ⟨hdlow, hdhigh⟩
  · rw [read_write hm, if_pos rfl]
  · rw [read_write hm, if_neg hj]

end Sys2Proof.Machine
end

section
/-! The operations of the host and the states they do not run from (70_reset_and_hazards.md). -/

namespace Sys2Proof.Machine

variable {R : Type}

/-- Settles O13: the step is defined by the status, and answers a next state for `RUNNING` only. -/
theorem terminalStatesHaveNoStep : Obligations.TerminalStatesHaveNoStep := by
  intro s hs
  rcases hst : s.status with _ | _ | r
  · exact absurd hst hs
  · simp only [step, stepBy, hst]
  · simp only [step, stepBy, hst]

/-- Settles O14: `run`, `reset` and `step` each look for the program first. -/
theorem nothingRunsBeforeFirstLoad : Obligations.NothingRunsBeforeFirstLoad := by
  intro s hp
  refine ⟨?_, ?_, fun hs => ?_⟩
  · simp only [hostRun, runBy, hp]
  · simp [hostReset, hp]
  · simp only [step, stepBy, hs, stepRunning, hp]

/-- Settles O15: where no capacity is reached there is room (`hasRoom_iff`). -/
theorem loadConstPushes : Obligations.LoadConstPushes :=
  fun _ _ hroom => exec_loadConst_of_room (hasRoom_iff.2 hroom)

/-- R201: `load` is busy exactly while a loaded engine is running. -/
theorem loadBusy_iff {s : State R} : s.loadBusy = true ↔ s.prog ≠ none ∧ s.status = .running := by
  simp [State.loadBusy, Option.isSome_iff_ne_none]

/-- R82, R201: the programs `load` accepts. -/
theorem programWellFormed_iff {p : Params} {prog : List Byte} :
    programWellFormed p prog = true ↔
      prog.length % 6 = 0 ∧ ∀ most, p.progMaxBytes = some most → prog.length ≤ most := by
  unfold programWellFormed
  cases p.progMaxBytes <;> simp

theorem hostLoad_of_busy {program : List Byte} {s : State R} (h : s.loadBusy = true) :
    hostLoad program s = (.busy, s) := by
  rw [hostLoad, if_pos h]

theorem hostLoad_of_wellFormed {program : List Byte} {s : State R} (hbusy : ¬ s.loadBusy = true)
    (h : programWellFormed s.params program = true) :
    hostLoad program s = (.accepted, { s with prog := some program }) := by
  rw [hostLoad, if_neg hbusy, if_pos h]

theorem hostLoad_of_malformed {program : List Byte} {s : State R} (hbusy : ¬ s.loadBusy = true)
    (h : ¬ programWellFormed s.params program = true) : hostLoad program s = (.lengthError, s) := by
  rw [hostLoad, if_neg hbusy, if_neg h]

/-- What `load` installs, it has checked. -/
theorem hostLoad_eq_accepted {program : List Byte} {s s' : State R} (h : hostLoad program s = (.accepted, s')) :
    programWellFormed s.params program = true ∧ s' = { s with prog := some program } := by
  by_cases hbusy : s.loadBusy = true
  · rw [hostLoad_of_busy hbusy] at h
    cases h
  · by_cases hwf : programWellFormed s.params program = true
    · rw [hostLoad_of_wellFormed hbusy hwf] at h
      exact ⟨hwf, (Prod.mk.inj h).2.symm⟩
    · rw [hostLoad_of_malformed hbusy hwf] at h
      cases h

/-- Settles O39: outside `busy`, the checks of `programWellFormed_iff` decide. -/
theorem loadAcceptsOrChangesNothing : Obligations.LoadAcceptsOrChangesNothing := by
  intro program s
  refine ⟨fun hp hs => hostLoad_of_busy (loadBusy_iff.2 ⟨hp, hs⟩), fun hfree => ?_⟩
  have hbusy : ¬ s.loadBusy = true := by
    rw [loadBusy_iff, not_and_or, not_not]
    exact hfree
  refine ⟨fun hlen hmost => ?_, fun hlen => ?_, fun most hmost hlong => ?_⟩
  · exact hostLoad_of_wellFormed hbusy (programWellFormed_iff.2 ⟨hlen, hmost⟩)
  · exact hostLoad_of_malformed hbusy fun h => hlen (programWellFormed_iff.1 h).1
  · exact hostLoad_of_malformed hbusy fun h => Nat.not_le.2 hlong ((programWellFormed_iff.1 h).2 most hmost)

/-- R202: `reset` answers only the reset state, over a loaded program. -/
theorem hostReset_eq_ok {s t : State R} (h : hostReset s = .ok t) : t = s.resetRun := by
  unfold hostReset at h
  split at h
  · exact (Reply.ok.inj h).symm
  · cases h

/-- R202, R203: a terminal engine with a program is reset. -/
theorem hostReset_of_terminal {s : State R} (hp : s.prog ≠ none) (hs : s.status ≠ .running) :
    hostReset s = .ok s.resetRun := by
  have hloaded : s.prog.isSome = true := Option.isSome_iff_ne_none.2 hp
  simp [hostReset, State.midRun, hloaded, isRunning_eq_false.2 hs]

/-- Settles O40: the reset state's fields, whose memory lists no cell. -/
theorem resetLeavesResetValues : Obligations.ResetLeavesResetValues :=
  fun s hp hs => ⟨s.resetRun, hostReset_of_terminal hp hs, rfl, rfl, fun _ => rfl, rfl, rfl, rfl⟩

/-- Settles O42: in a terminal state the bounds decide (`hostReadResult_of_not_running`). -/
theorem readResultRefusesOutside : Obligations.ReadResultRefusesOutside := by
  intro s first last
  refine ⟨fun hs hout => ?_, fun hs => ?_⟩
  · rw [hostReadResult_of_not_running hs, if_neg (by omega)]
  · rw [hostReadResult, if_pos (isRunning_iff.2 hs)]

/-- Settles O43: the listed stack is the reverse of one whose top is its head. -/
theorem readStateListsStackBottomUp : Obligations.ReadStateListsStackBottomUp := by
  intro s
  refine ⟨fun hs => ⟨s.stack.reverse, ?_, List.length_reverse, fun k hk => ?_⟩, fun hs => ?_⟩
  · rw [hostReadState, if_neg (mt isRunning_iff.1 hs)]
  · exact List.getElem?_reverse (List.length_reverse ▸ hk)
  · rw [hostReadState, if_pos (isRunning_iff.2 hs)]

/-- Settles O48: `exec` is `execWith` at the default, and `step` and `run` are made of it. -/
theorem defaultParametersAreThisHardware : Obligations.DefaultParametersAreThisHardware := by
  refine ⟨rfl, exec_eq_execWith, step_eq_stepWith, fun s => ?_⟩
  have hstep : step = stepWith RealArith.default := funext step_eq_stepWith
  rw [hostRun, hostRunWith, hstep]

end Sys2Proof.Machine
end

section
/-! The checks of a source line in their order (30_encoding.md section 5, decision D16): form, opcode, arity, range. -/

namespace Sys2Proof.Machine

theorem assembleLine_of_parse {line : List Char} {l : SourceLine} (h : parseLine line = some l) :
    assembleLine line = checkLine l := by
  rw [assembleLine, h]

/-- R92: every other opcode number is unrecognized. -/
theorem arity_eq_none {a : Int} (h1 : a ≠ 1) (h62 : a ≠ 62) (h90 : a ≠ 90) (h137 : a ≠ 137) : arity a = none := by
  simp only [arity, if_neg h90, if_neg h1, if_neg h137, if_neg h62]

/-- R93 check 2: an unrecognized opcode is skipped whatever its line holds besides. -/
theorem checkLine_of_unrecognized {a : Int} (h : arity a = none) :
    checkLine (.one a) = .skip .unrecognizedOpcode ∧ ∀ b, checkLine (.two a b) = .skip .unrecognizedOpcode := by
  simp [checkLine, h]

/-- R93 check 4: an operand that does not fit the instruction's field is fatal. -/
theorem emitChecked_of_unfit {a b : Int} {i : Instr} (hi : instrOfNumbers a b.toNat = some i)
    (hb : b < 0 ∨ i.wellFormed = false) : emitChecked a b = .fatal .rangeError := by
  have hunfit : ¬ (0 ≤ b ∧ i.wellFormed = true) := by
    rintro ⟨hlow, hwf⟩
    rcases hb with hneg | hwf'
    · omega
    · exact Bool.false_ne_true (hwf'.symm.trans hwf)
  simp only [emitChecked, hi, if_neg hunfit]

/-- R93 checks 3 and 4 on a line of an opcode with one operand. -/
theorem checkLine_two_of_unfit {a b : Int} {i : Instr} (ha : arity a = some 1)
    (hi : instrOfNumbers a b.toNat = some i) (hb : b < 0 ∨ i.wellFormed = false) :
    checkLine (.two a b) = .fatal .rangeError := by
  simp only [checkLine, ha, if_true, emitChecked_of_unfit hi hb]

/-- Settles O45: each clause is the check of R93 that its line is the first to fail. -/
theorem lineChecksInOrder : Obligations.LineChecksInOrder := by
  intro line
  refine ⟨fun hp => ?_, fun a h1 h62 h90 h137 => ?_, fun a ha hp => ?_, fun b hp => ?_, fun b hp hb => ?_,
    fun a b ha hp hb => ?_⟩
  · rw [assembleLine, hp]
  · obtain ⟨hone, htwo⟩ := checkLine_of_unrecognized (arity_eq_none h1 h62 h90 h137)
    exact ⟨fun hp => (assembleLine_of_parse hp).trans hone, fun b hp => (assembleLine_of_parse hp).trans (htwo b)⟩
  · have harity : arity a = some 1 := arity_eq_one.2 (by omega)
    rw [assembleLine_of_parse hp, checkLine, harity]
    rfl
  · rw [assembleLine_of_parse hp]
    rfl
  · rw [assembleLine_of_parse hp]
    exact checkLine_two_of_unfit rfl rfl (hb.imp_right fun hbig => decide_eq_false (by omega))
  · rw [assembleLine_of_parse hp]
    rcases ha with rfl | rfl
    · exact checkLine_two_of_unfit rfl rfl (hb.imp_right fun hbig => decide_eq_false (by omega))
    · exact checkLine_two_of_unfit rfl rfl (hb.imp_right fun hbig => decide_eq_false (by omega))

end Sys2Proof.Machine
end

section
/-! The invariant of the engine (10_state.md sections 3 to 8): the start of a run has it and every step keeps it, under
every `REAL` and `SQRT_FN`. -/

namespace Sys2Proof.Machine

variable {R : Type}

/-- The state a run starts from has the invariant. -/
theorem invariant_of_start {s : State R} (hparams : s.params.wellFormed = true) (hprog : s.progLength % 6 = 0)
    (hpc : s.pc = 0) (hstack : s.stack = []) (hmem : s.mem = []) (hs : s.status = .running) : s.Invariant where
  params_legal := hparams
  mem_canonical := hmem ▸ wf_nil
  mem_inside := hmem ▸ within_nil _
  prog_whole := hprog
  pc_aligned := by rw [hpc]
  pc_inside := by rw [hpc]; exact Nat.zero_le _
  stack_fits := stackFits_iff.2 fun c _ => by rw [hstack]; exact Nat.zero_le c
  status_agrees := statusAgrees_of_running hs

/-- The bound on values says nothing of an empty stack and the reset memory. -/
theorem valuesBounded_of_start {s : State} (hstack : s.stack = []) (hmem : s.mem = []) : s.ValuesBounded := by
  simp [State.ValuesBounded, hstack, hmem]

/-- Settles O30: the reset state is the start of a run over no program. -/
theorem resetSatisfiesInvariant : Obligations.ResetSatisfiesInvariant :=
  ⟨invariant_of_start rfl rfl rfl rfl rfl rfl, valuesBounded_of_start rfl rfl⟩

/-- The memory a completed instruction leaves: as it was, or after one write to a cell, of a value from the stack or of
the root of a cell that is not negative. -/
theorem bodyWith_mem_cases {A : RealArith R} {i : Instr} {s : State R} {k : List (Value R)} {m : Memory R}
    (h : bodyWith A i s = .ok (k, m)) :
    m = s.mem ∨ ∃ j v, j < s.params.memSize ∧ m = s.mem.write j v ∧
      (v ∈ s.stack ∨ ∃ l, (s.mem.read l).isNegativeBy A.isNegative = false ∧ v = .real (A.sqrtFn (s.mem.read l))) := by
  cases i with
  | loadConst b =>
    obtain ⟨-, -, rfl⟩ := loadConstBody_eq_ok.1 h
    exact .inl rfl
  | readMem b =>
    obtain ⟨n, rest, j, -, -, -, -, rfl⟩ := readMemBody_eq_ok h
    exact .inl rfl
  | writeMem =>
    obtain ⟨v, n, j, hstack, hindex, rfl⟩ := writeMemBody_eq_ok h
    obtain ⟨-, -, -, hj⟩ := index_eq_ok hindex
    exact .inr ⟨j, v, hj, rfl, .inl (by simp [hstack])⟩
  | sqrt b =>
    obtain ⟨a, base, l, j, -, -, hsign, hindex, rfl⟩ := sqrtBody_eq_ok h
    obtain ⟨-, -, -, hj⟩ := index_eq_ok hindex
    exact .inr ⟨j, _, hj, rfl, .inr ⟨l, hsign, rfl⟩⟩

/-- The values a completed instruction leaves on the stack: those there before, a cell's, or the constant of
LOAD_CONST. -/
theorem bodyWith_stack_cases {A : RealArith R} {i : Instr} {s : State R} {k : List (Value R)} {m : Memory R}
    {v : Value R} (h : bodyWith A i s = .ok (k, m)) (hv : v ∈ k) :
    v ∈ s.stack ∨ (∃ j, v = s.mem.read j) ∨ ∃ b : Nat, i = .loadConst b ∧ v = .int b := by
  cases i with
  | loadConst b =>
    obtain ⟨-, rfl, -⟩ := loadConstBody_eq_ok.1 h
    rcases List.mem_cons.1 hv with rfl | hv
    · exact .inr (.inr ⟨b, rfl, rfl⟩)
    · exact .inl hv
  | readMem b =>
    obtain ⟨n, rest, j, hstack, -, -, rfl, -⟩ := readMemBody_eq_ok h
    rcases List.mem_cons.1 hv with rfl | hv
    · exact .inr (.inl ⟨j, rfl⟩)
    · exact .inl (by simp [hstack, hv])
  | writeMem =>
    obtain ⟨w, n, j, hstack, -, -⟩ := writeMemBody_eq_ok h
    exact .inl (by simp [hstack, hv])
  | sqrt b =>
    obtain ⟨a, base, l, j, hstack, -, -, -, -⟩ := sqrtBody_eq_ok h
    exact .inl (by simp [hstack, hv])

/-- R178: an instruction completes with its stack within the capacity. -/
theorem bodyWith_stackFits {A : RealArith R} {i : Instr} {s : State R} {k : List (Value R)} {m : Memory R}
    (h : bodyWith A i s = .ok (k, m)) (hfits : s.stackFits = true) : (s.complete k m).stackFits = true := by
  refine stackFits_iff.2 fun c hc => ?_
  rcases bodyWith_stack_length h with hle | ⟨⟨b, rfl⟩, hlen⟩
  · exact hle.trans (stackFits_iff.1 hfits c hc)
  · obtain ⟨hroom, -, -⟩ := loadConstBody_eq_ok.1 h
    have hlt : s.stack.length < c := hasRoom_iff.1 hroom c hc
    rw [complete_stack, hlen]
    exact hlt

/-- The end of a run at the program's end (R111) keeps the invariant: the pc is there exactly. -/
theorem invariant_withStatus_done {s : State R} (h : s.Invariant) (hend : s.progLength ≤ s.pc) :
    (s.withStatus .done).Invariant where
  params_legal := h.params_legal
  mem_canonical := h.mem_canonical
  mem_inside := h.mem_inside
  prog_whole := h.prog_whole
  pc_aligned := h.pc_aligned
  pc_inside := h.pc_inside
  stack_fits := h.stack_fits
  status_agrees := (statusAgrees_of_done rfl).2 (le_antisymm h.pc_inside hend)

/-- A fault inside the program (R176) keeps the invariant: its record is that of R31. -/
theorem invariant_takeFault {s : State R} (h : s.Invariant) (hin : s.pc < s.progLength) (r : Raised R) :
    (takeFault s r).Invariant where
  params_legal := h.params_legal
  mem_canonical := h.mem_canonical
  mem_inside := h.mem_inside
  prog_whole := h.prog_whole
  pc_aligned := h.pc_aligned
  pc_inside := h.pc_inside
  stack_fits := h.stack_fits
  status_agrees := (statusAgrees_of_fault rfl).2 ⟨hin, rfl, rfl, faultRecord_wellFormed s r⟩

/-- A completed instruction inside the program (R113) keeps the invariant: whole records leave room for the pc. -/
theorem invariant_complete {A : RealArith R} {i : Instr} {s : State R} {k : List (Value R)} {m : Memory R}
    (h : s.Invariant) (hs : s.status = .running) (hin : s.pc < s.progLength)
    (hbody : bodyWith A i s = .ok (k, m)) : (s.complete k m).Invariant where
  params_legal := h.params_legal
  mem_canonical := by
    rcases bodyWith_mem_cases hbody with rfl | ⟨j, v, -, rfl, -⟩
    · exact h.mem_canonical
    · exact write_wf h.mem_canonical j v
  mem_inside := by
    rcases bodyWith_mem_cases hbody with rfl | ⟨j, v, hj, rfl, -⟩
    · exact h.mem_inside
    · exact write_within h.mem_inside hj v
  prog_whole := h.prog_whole
  pc_aligned := by
    have hpc := h.pc_aligned
    rw [complete_pc]
    omega
  pc_inside := by
    have hpc := h.pc_aligned
    have hprog := h.prog_whole
    rw [complete_pc, progLength_complete]
    omega
  stack_fits := bodyWith_stackFits hbody h.stack_fits
  status_agrees := statusAgrees_of_running hs

theorem progLength_of_prog {s : State R} {prog : List Byte} (hp : s.prog = some prog) :
    s.progLength = prog.length := by
  rw [State.progLength, State.progBytes, hp, Option.getD_some]

/-- Every step of the engine keeps the invariant: the three ways a step can end. -/
theorem stepWith_invariant {A : RealArith R} {s t : State R} (h : s.Invariant) (hstep : stepWith A s = .next t) :
    t.Invariant := by
  obtain ⟨hs, prog, hp, hcases⟩ := stepBy_cases hstep
  rw [← progLength_of_prog hp] at hcases
  rcases hcases with ⟨hend, rfl⟩ | ⟨hin, i, -, hexec⟩ | ⟨hin, op, -, rfl⟩
  · exact invariant_withStatus_done h hend
  · rcases execWith_cases hexec with ⟨k, m, hbody, rfl⟩ | ⟨r, -, rfl⟩
    · exact invariant_complete h hs hin hbody
    · exact invariant_takeFault h hin r
  · exact invariant_takeFault h hin .illegalOpcode

/-- Settles O31: `stepWith_invariant` at the defaults. -/
theorem stepKeepsInvariant : Obligations.StepKeepsInvariant :=
  fun s _ h hstep => stepWith_invariant h (step_eq_stepWith s ▸ hstep)

/-- Settles O32: `load` has checked the program and `reset` answers the start of a run over it. -/
theorem loadThenResetIsReady : Obligations.LoadThenResetIsReady := by
  intro program s s' t hparams hload hreset
  obtain ⟨hwf, rfl⟩ := hostLoad_eq_accepted hload
  obtain rfl := hostReset_eq_ok hreset
  obtain ⟨hwhole, -⟩ := programWellFormed_iff.1 hwf
  exact ⟨invariant_of_start hparams hwhole rfl rfl rfl rfl, valuesBounded_of_start rfl rfl, rfl, rfl, rfl, rfl,
    fun _ => rfl⟩

end Sys2Proof.Machine
end

section
/-! The run of the host (R203): how it returns (R117), and what holds at its end. -/

namespace Sys2Proof.Machine

variable {R : Type}

/-- What holds at a run's start and every step keeps, holds at its end. -/
theorem runSteps_induction {one : State R → Answer R} {P : State R → Prop}
    (hone : ∀ s t, P s → one s = .next t → P t) {n : Nat} {s t : State R} (hs : P s)
    (h : runSteps one n s = .next t) : P t := by
  induction n generalizing s with
  | zero => exact Host.Outcome.next.inj h ▸ hs
  | succ n ih =>
    rw [runSteps] at h
    split at h
    · rcases hstep : one s with u | r | r
      · rw [hstep] at h
        exact ih (hone s u hs hstep) h
      · simp [hstep] at h
      · simp [hstep] at h
    · exact Host.Outcome.next.inj h ▸ hs

/-- A run's first step from a running state. -/
theorem runSteps_succ_of_next {one : State R → Answer R} {n : Nat} {s t : State R} (hs : s.status = .running)
    (h : one s = .next t) : runSteps one (n + 1) s = runSteps one n t := by
  rw [runSteps, if_pos (isRunning_iff.2 hs), h]

/-- A loaded engine runs its steps. -/
theorem hostRun_of_prog {s : State} {prog : List Byte} (hp : s.prog = some prog) :
    hostRun s = runSteps step (prog.length / 6 + 1) s := by
  simp only [hostRun, runBy, hp]

/-- What holds at a run's start and every step keeps, holds where `run` returns. -/
theorem hostRun_induction {P : State → Prop} (hstep : ∀ s t, P s → step s = .next t → P t) {s t : State} (hs : P s)
    (h : hostRun s = .next t) : P t := by
  rcases hp : s.prog with _ | prog
  · rw [(nothingRunsBeforeFirstLoad s hp).1] at h
    cases h
  · rw [hostRun_of_prog hp] at h
    exact runSteps_induction hstep hs h

/-- An instruction always answers a next state. -/
theorem exec_next (i : Instr) (s : State) : ∃ t, exec i s = .next t := by
  rcases execCompletesOrFaultsPrecisely i s with ⟨k, m, h⟩ | ⟨r, h, -⟩
  · exact ⟨_, h⟩
  · exact ⟨_, h⟩

/-- R53: under the invariant a running engine with a program has a next step, since a fetch inside it reads a whole
record. -/
theorem step_next {s : State} {prog : List Byte} (h : s.Invariant) (hs : s.status = .running)
    (hp : s.prog = some prog) : ∃ t, step s = .next t := by
  by_cases hin : s.pc < prog.length
  · rw [step_inside hs hp hin]
    rcases hd : decode (fetchRecord prog s.pc) with i | op | _
    · exact exec_next i s
    · exact ⟨_, rfl⟩
    · have hwhole := h.prog_whole
      rw [progLength_of_prog hp] at hwhole
      exact absurd (fetchRecord_whole hwhole h.pc_aligned hin) (decode_notARecord_iff.1 hd)
  · exact ⟨_, step_at_end hs hp (Nat.le_of_not_lt hin)⟩

/-- R117: as many steps as there are records from the pc on, and one for the end, bring a run to a terminal state. -/
theorem runSteps_returns {prog : List Byte} {n : Nat} {s : State} (h : s.Invariant) (hp : s.prog = some prog)
    (hn : prog.length < s.pc + 6 * n) : ∃ t, runSteps step n s = .next t ∧ t.status ≠ .running := by
  induction n generalizing s with
  | zero =>
    have hpc := h.pc_inside
    rw [progLength_of_prog hp] at hpc
    omega
  | succ n ih =>
    by_cases hs : s.status = .running
    · obtain ⟨u, hstep⟩ := step_next h hs hp
      obtain ⟨hprog, -⟩ := stepNeverWritesProgram s u hstep
      rw [runSteps_succ_of_next hs hstep]
      rcases step_pc_cases hstep with ⟨-, hpc⟩ | ⟨hend, -⟩
      · exact ih (stepKeepsInvariant s u h hstep) (hprog.trans hp) (by omega)
      · exact ⟨u, runSteps_of_not_running hend n, hend⟩
    · exact ⟨s, runSteps_of_not_running hs (n + 1), hs⟩

/-- R30, R31, R117: what the invariant says of a terminal state. -/
theorem terminal_of_invariant {s : State R} (h : s.Invariant) (hs : s.status ≠ .running) :
    s.status = .done ∧ s.pc = s.progLength ∨ ∃ r, s.status = .fault r ∧ r.faultPc = s.pc ∧ s.pc < s.progLength := by
  have hagrees := h.status_agrees
  rcases hst : s.status with _ | _ | r
  · exact absurd hst hs
  · exact .inl ⟨rfl, (statusAgrees_of_done hst).1 hagrees⟩
  · obtain ⟨hin, hpc, -, -⟩ := (statusAgrees_of_fault hst).1 hagrees
    exact .inr ⟨r, rfl, hpc, hin⟩

/-- Settles O35: the run returns (`runSteps_returns`), its end has the invariant (`hostRun_induction`), and that says
what the terminal state is. -/
theorem runAlwaysReturns : Obligations.RunAlwaysReturns := by
  intro s h hloaded
  obtain ⟨prog, hp⟩ := Option.ne_none_iff_exists'.1 hloaded
  obtain ⟨t, hsteps, hend⟩ := runSteps_returns h hp (n := prog.length / 6 + 1) (by omega)
  have hrun : hostRun s = .next t := (hostRun_of_prog hp).trans hsteps
  have hinv : t.Invariant := hostRun_induction stepKeepsInvariant h hrun
  exact ⟨t, hrun, hinv, terminal_of_invariant hinv hend⟩

/-- Every record of the program is an instruction's. -/
def AllInstructions (prog : List Byte) : Prop :=
  ∀ pc, pc % 6 = 0 → pc < prog.length → ∃ i, decode (fetchRecord prog pc) = .instr i

/-- The records of well-formed instructions decode back to them. -/
theorem allInstructions_flatMap_encode {l : List Instr} (hl : ∀ i ∈ l, i.wellFormed = true) :
    AllInstructions (l.flatMap encode) := by
  intro pc haligned hin
  rw [length_flatMap_encode] at hin
  obtain ⟨k, rfl⟩ : ∃ k, pc = 6 * k := ⟨pc / 6, by omega⟩
  have hk : k < l.length := by omega
  refine ⟨l[k], ?_⟩
  rw [fetchRecord, record_flatMap_encode (List.getElem?_eq_getElem hk), decode_encode (hl _ (List.getElem_mem hk))]

/-- What the assembler writes is all instructions (R93 to R95). -/
theorem allInstructions_of_assemble {text : List Char} {o : Assembled} (h : assemble text = .ok o) :
    AllInstructions o.bytes := by
  rw [assemble_bytes h]
  refine allInstructions_flatMap_encode fun i hi => ?_
  obtain ⟨line, -, hline⟩ := List.mem_filterMap.1 hi
  exact emittedBy_wellFormed hline

/-- The status is no `IllegalOpcode` fault. -/
def Status.notIllegal (st : Status R) : Prop := ∀ r, st = .fault r → r.kind ≠ .illegalOpcode

/-- Over a program of instructions, no step enters the fault `IllegalOpcode` (R115 is the only way in). -/
theorem step_notIllegal {s t : State} {prog : List Byte} (h : s.Invariant) (hp : s.prog = some prog)
    (hall : AllInstructions prog) (hstep : step s = .next t) : t.status.notIllegal := by
  obtain ⟨hs, q, hq, hcases⟩ := step_cases hstep
  obtain rfl : prog = q := Option.some.inj (hp.symm.trans hq)
  intro r hr
  rcases hcases with ⟨-, rfl⟩ | ⟨-, i, -, hexec⟩ | ⟨hin, op, hd, -⟩
  · cases hr
  · rcases exec_cases hexec with ⟨k, m, -, rfl⟩ | ⟨q, hbody, rfl⟩
    · cases hs.symm.trans hr
    · obtain rfl := Status.fault.inj hr
      exact bodyWith_not_illegal hbody
  · obtain ⟨i, hi⟩ := hall s.pc h.pc_aligned hin
    cases hi.symm.trans hd

/-- A state of a run over `prog`, with the invariant, that met no illegal opcode. -/
structure LegalRun (prog : List Byte) (s : State) : Prop where
  inv : s.Invariant
  prog_eq : s.prog = some prog
  legal : s.status.notIllegal

theorem step_legalRun {prog : List Byte} (hall : AllInstructions prog) {s t : State} (h : LegalRun prog s)
    (hstep : step s = .next t) : LegalRun prog t where
  inv := stepKeepsInvariant s t h.inv hstep
  prog_eq := (stepNeverWritesProgram s t hstep).1.trans h.prog_eq
  legal := step_notIllegal h.inv h.prog_eq hall hstep

/-- Settles O47: the run starts over the assembler's program (`loadThenResetIsReady`), which is all instructions
(`allInstructions_of_assemble`), and every step keeps that no illegal opcode was met (`step_legalRun`). -/
theorem assembledProgramIsNeverIllegal : Obligations.AssembledProgramIsNeverIllegal := by
  intro text o s s' t u hparams hasm hload hreset hrun
  obtain ⟨hinv, -, hprog, hrunning, -⟩ := loadThenResetIsReady o.bytes s s' t hparams hload hreset
  have hstart : t.status.notIllegal := fun r hr => by cases hrunning.symm.trans hr
  have hend : LegalRun o.bytes u :=
    hostRun_induction (fun _ _ => step_legalRun (allInstructions_of_assemble hasm)) ⟨hinv, hprog, hstart⟩ hrun
  exact hend.legal

end Sys2Proof.Machine
end

section
/-! What a binary64 datum denotes, and which root of it `SQRT_FN` takes (43_sqrt.md, log entry 4). -/

namespace Sys2Proof.Machine

/-- The number of a finite datum: sign, significand, scale. -/
theorem realNum_eq_some {r : Binary64} {x : ℚ} :
    realNum r = some x ↔ realExponent r ≠ 2047 ∧
      x = (if realSign r then -1 else 1) * (realSignificand r : ℚ) * (2 : ℚ) ^ realScale r := by
  by_cases hfin : realExponent r = 2047
  · simp [realNum, hfin]
  · rw [realNum, if_neg hfin, Option.some.injEq, eq_comm (b := x)]
    exact (and_iff_right hfin).symm

/-- A finite datum is a zero exactly where its significand is. -/
theorem realSignificand_eq_zero {r : Binary64} : realSignificand r = 0 ↔ realIsZero r = true := by
  unfold realSignificand realIsZero
  split <;> simp [*]

theorem realSignificand_lt (r : Binary64) : realSignificand r < 2 ^ 53 := by
  unfold realSignificand realFraction
  split <;> omega

theorem realScale_ge (r : Binary64) : -1074 ≤ realScale r := by
  unfold realScale
  split <;> omega

/-- A negative datum is one with the sign bit set that is not a zero. -/
theorem realNum_neg_iff {r : Binary64} {x : ℚ} (h : realNum r = some x) :
    x < 0 ↔ realSign r = true ∧ realIsZero r = false := by
  obtain ⟨-, rfl⟩ := realNum_eq_some.1 h
  have hscale : (0 : ℚ) < (2 : ℚ) ^ realScale r := by positivity
  have hzero : realIsZero r = false ↔ 0 < realSignificand r := by
    rw [Nat.pos_iff_ne_zero, ne_eq, realSignificand_eq_zero, Bool.not_eq_true]
  rw [hzero]
  cases realSign r with
  | false => simpa using mul_nonneg (Nat.cast_nonneg (α := ℚ) (realSignificand r)) hscale.le
  | true => simp [hscale]

/-- The sign test of a real is that of the number it denotes (R161, R162). -/
theorem realIsNegative_iff {r : Binary64} {x : ℚ} (h : realNum r = some x) : realIsNegative r = true ↔ x < 0 := by
  obtain ⟨hfin, -⟩ := realNum_eq_some.1 h
  rw [realNum_neg_iff h]
  simp [realIsNegative, realIsNaN, hfin]

/-- R13: the sign test of a value is that of the number it denotes. -/
theorem isNegative_iff {v : Value} {x : ℚ} (h : v.num = some x) : v.isNegative = true ↔ x < 0 := by
  cases v with
  | int n =>
    obtain rfl : (n : ℚ) = x := Option.some.inj h
    simp [Value.isNegative]
  | real r => exact realIsNegative_iff h

/-- The root of a zero is that zero (log entry 4). -/
theorem sqrtOfReal_of_zero {r : Binary64} (h : realIsZero r = true) : sqrtOfReal r = r := by
  have hnan : realIsNaN r = false := by
    simp only [realIsZero, Bool.and_eq_true, beq_iff_eq] at h
    simp [realIsNaN, h.1]
  simp [sqrtOfReal, hnan, h]

/-- The root of a positive finite datum is the rounded root of its significand and scale. -/
theorem sqrtOfReal_of_pos {r : Binary64} (hfin : realExponent r ≠ 2047) (hzero : realIsZero r = false)
    (hsign : realSign r = false) : sqrtOfReal r = roundedSqrt (realSignificand r) (realScale r) := by
  simp [sqrtOfReal, realIsNaN, realIsInf, hfin, hzero, hsign]

/-- The square root of a datum that denotes a number, not negative: a zero's is itself, every other is rounded. -/
theorem sqrtOfReal_cases {r : Binary64} {x : ℚ} (h : realNum r = some x) (hx : 0 ≤ x) :
    (x = 0 ∧ sqrtOfReal r = r) ∨
      ∃ (m : Nat) (e : Int), 0 < m ∧ -1074 ≤ e ∧ (m : ℚ) * (2 : ℚ) ^ e = x ∧ sqrtOfReal r = roundedSqrt m e := by
  obtain ⟨hfin, hnum⟩ := realNum_eq_some.1 h
  rcases hzero : realIsZero r with _ | _
  · have hsign : realSign r = false := by
      by_contra hset
      exact not_lt.2 hx ((realNum_neg_iff h).2 ⟨by simpa using hset, hzero⟩)
    have hpos : 0 < realSignificand r :=
      Nat.pos_of_ne_zero fun h0 => Bool.false_ne_true (hzero.symm.trans (realSignificand_eq_zero.1 h0))
    exact .inr ⟨realSignificand r, realScale r, hpos, realScale_ge r, by simp [hnum, hsign],
      sqrtOfReal_of_pos hfin hzero hsign⟩
  · exact .inl ⟨by simp [hnum, realSignificand_eq_zero.2 hzero], sqrtOfReal_of_zero hzero⟩

theorem realNum_zero : realNum 0#64 = some 0 := by
  simp [realNum_eq_some, realSignificand, realExponent, realFraction]

/-- `SQRT_FN` of a value that denotes a number, not negative: the root of zero denotes zero, and is the positive zero or
the operand itself; every other root is rounded from a significand and a scale of the number. -/
theorem sqrtFn_cases {v : Value} {x : ℚ} (h : v.num = some x) (hx : 0 ≤ x) :
    (x = 0 ∧ realNum (sqrtFn v) = some 0 ∧ (sqrtFn v = 0#64 ∨ v = .real (sqrtFn v))) ∨
      ∃ (m : Nat) (e : Int), 0 < m ∧ -1074 ≤ e ∧ (m : ℚ) * (2 : ℚ) ^ e = x ∧ sqrtFn v = roundedSqrt m e := by
  cases v with
  | int n =>
    obtain rfl : (n : ℚ) = x := Option.some.inj h
    obtain ⟨m, rfl⟩ := Int.eq_ofNat_of_zero_le (Int.cast_nonneg_iff.1 hx)
    by_cases hm : m = 0
    · subst hm
      exact .inl ⟨rfl, realNum_zero, .inl rfl⟩
    · exact .inr ⟨m, 0, Nat.pos_of_ne_zero hm, by norm_num, by simp, by simp [sqrtFn, sqrtOfNat, hm]⟩
  | real r =>
    rcases sqrtOfReal_cases h hx with ⟨rfl, hroot⟩ | hrounded
    · have hself : sqrtFn (.real r) = r := hroot
      exact .inl ⟨rfl, hself.symm ▸ h, .inr (congrArg Value.real hself.symm)⟩
    · exact .inr hrounded

/-- Whatever its free bits, the datum is a NaN. -/
theorem freeNaN_isNaN (r : Binary64) : realIsNaN (freeNaN r) = true := by
  have hbits : (Config.sqrtNaNBits r).toNat < 2 ^ 52 := (Config.sqrtNaNBits r).isLt
  simp only [realIsNaN, realExponent, realFraction, freeNaN, BitVec.toNat_ofNat, Bool.and_eq_true, beq_iff_eq,
    bne_iff_ne]
  omega

/-- Settles O38: the root of a NaN is the free one (`freeNaN_isNaN`). -/
theorem sqrtOfNaNIsNaN : Obligations.SqrtOfNaNIsNaN := by
  intro r h
  have hroot : sqrtFn (.real r) = freeNaN r := by simp [sqrtFn, sqrtOfReal, h]
  rw [hroot]
  exact freeNaN_isNaN r

end Sys2Proof.Machine
end

section
/-! The correct rounding of `SQRT_FN` at the default (decision D3): nearest datum, ties to even, and perfect squares. -/

namespace Sys2Proof.Machine

/-- A grid point other than the one rounded to, of a grid of step `u`, is at least as far from what was rounded, and as
far only where the rounding was by half a step. -/
theorem grid_distance {M k : Int} {u root : ℝ} (hu : 0 < u) (hround : |(M : ℝ) * u - root| ≤ u / 2) (hk : k ≠ M) :
    u / 2 ≤ |(k : ℝ) * u - root| := by
  have hstep : u ≤ |(k : ℝ) * u - M * u| := by
    have hone : (1 : ℝ) ≤ |(k : ℝ) - M| := by
      exact_mod_cast Int.one_le_abs (sub_ne_zero.2 hk)
    rw [← sub_mul, abs_mul, abs_of_pos hu]
    exact le_mul_of_one_le_left hu.le hone
  have htriangle := abs_sub_le ((k : ℝ) * u) root (M * u)
  rw [abs_sub_comm root] at htriangle
  linarith

/-- No grid point is nearer than the one rounded to. -/
theorem grid_nearest {M k : Int} {u root : ℝ} (hu : 0 < u) (hround : |(M : ℝ) * u - root| ≤ u / 2) :
    |(M : ℝ) * u - root| ≤ |(k : ℝ) * u - root| := by
  by_cases hk : k = M
  · rw [hk]
  · exact hround.trans (grid_distance hu hround hk)

/-- A datum below the grid of 53-bit significands of step `u` is farther from a root above its start than the grid's
first point, so farther than the point rounded to. -/
theorem below_grid_farther {M : Int} {u root y : ℝ} (hu : 0 < u) (hround : |(M : ℝ) * u - root| ≤ u / 2)
    (hroot : 2 ^ 52 * u ≤ root) (hy : y < 2 ^ 52 * u) : |(M : ℝ) * u - root| < |y - root| := by
  have hfirst : |(M : ℝ) * u - root| ≤ |2 ^ 52 * u - root| := by
    have hpoint : (((2 : Int) ^ 52 : Int) : ℝ) = 2 ^ 52 := by norm_num
    rw [← hpoint]
    exact grid_nearest hu hround
  rw [abs_of_nonpos (sub_nonpos.2 hroot)] at hfirst
  rw [abs_of_neg (sub_neg.2 (hy.trans_le hroot))]
  linarith

/-- Round to nearest, ties to even: no datum is nearer to `y` than `root`, and where another is as near, the
significand of `root` is even. -/
def RoundsToNearestEven (root : Binary64) (y : ℝ) : Prop :=
  ∃ q : ℚ, realNum root = some q ∧
    ∀ (r : Binary64) (q' : ℚ), realNum r = some q' →
      |(q : ℝ) - y| ≤ |(q' : ℝ) - y| ∧ (|(q : ℝ) - y| = |(q' : ℝ) - y| → q ≠ q' → realFraction root % 2 = 0)

/-- A datum that denotes 0 is nearest to 0, and no other number is as near. -/
theorem roundsToNearestEven_zero {root : Binary64} (h : realNum root = some 0) : RoundsToNearestEven root 0 := by
  refine ⟨0, h, fun r q' _ => ?_⟩
  simp only [Rat.cast_zero, sub_zero, abs_zero]
  refine ⟨abs_nonneg _, fun heq hne => absurd ?_ hne⟩
  exact_mod_cast (abs_eq_zero.1 heq.symm).symm

/-- The rounded root of a positive number in the range of the data is rounded to nearest, ties to even. -/
theorem roundedSqrt_nearest {m : Nat} {e : Int} (hm : 0 < m) (he : -1074 ≤ e)
    (hx : (m : ℝ) * (2 : ℝ) ^ e < 2 ^ 1024) :
    RoundsToNearestEven (roundedSqrt m e) (Real.sqrt ((m : ℝ) * (2 : ℝ) ^ e)) := by
  obtain ⟨b, M, hb1, hb2, hM1, hM2, hpack, hroot, hround, htie⟩ := roundedSqrt_spec hm he hx
  rw [hpack]
  refine ⟨_, packReal_num hb1 hb2 hM1 hM2, fun r q' hq' => ?_⟩
  have hu : (0 : ℝ) < (2 : ℝ) ^ ((b : Int) - 1075) := by positivity
  have hround' : |((M : Int) : ℝ) * (2 : ℝ) ^ ((b : Int) - 1075) - Real.sqrt ((m : ℝ) * (2 : ℝ) ^ e)| ≤
      (2 : ℝ) ^ ((b : Int) - 1075) / 2 := by rwa [Int.cast_natCast]
  rw [packReal_fraction_mod hb1 hb2 hM2]
  rcases realNum_grid hq' ((b : Int) - 1075) with ⟨k, rfl⟩ | hbelow
  · refine ⟨by simpa using grid_nearest (k := k) hu hround', fun heq hne => htie (le_antisymm hround ?_)⟩
    have hk : k ≠ M := by
      rintro rfl
      simp at hne
    push_cast at heq
    rw [heq]
    exact grid_distance hu hround' hk
  · have hbelow' : (q' : ℝ) < 2 ^ 52 * (2 : ℝ) ^ ((b : Int) - 1075) := by
      have hcast := (Rat.cast_lt (K := ℝ)).2 hbelow
      push_cast at hcast
      exact hcast
    have hfarther := below_grid_farther hu hround' hroot hbelow'
    rw [Int.cast_natCast] at hfarther
    push_cast
    exact ⟨hfarther.le, fun heq => absurd heq hfarther.ne⟩

/-- Settles O37: a zero's root is exact, and every other is rounded (`sqrtFn_cases`) to the nearest datum
(`roundedSqrt_nearest`). -/
theorem sqrtIsCorrectlyRounded : Obligations.SqrtIsCorrectlyRounded := by
  intro v x hv hx0 hx
  suffices h : RoundsToNearestEven (sqrtFn v) (Real.sqrt (x : ℝ)) from h
  rcases sqrtFn_cases hv hx0 with ⟨rfl, hroot, -⟩ | ⟨m, e, hm, he, rfl, hroot⟩
  · rw [Rat.cast_zero, Real.sqrt_zero]
    exact roundsToNearestEven_zero hroot
  · have hcast : (((m : ℚ) * (2 : ℚ) ^ e : ℚ) : ℝ) = (m : ℝ) * (2 : ℝ) ^ e := by push_cast; rfl
    rw [hroot, hcast]
    refine roundedSqrt_nearest hm he ?_
    rw [← hcast]
    exact_mod_cast hx

/-- A number shifted to a significand and scaled back. -/
theorem shift_mul_scale {K : Type} [Field K] [CharZero K] {b : Nat} (hb : b ≤ 1075) (k : Nat) :
    ((k * 2 ^ (1075 - b) : Nat) : K) * (2 : K) ^ ((b : Int) - 1075) = k := by
  have hexp : (b : Int) - 1075 = -((1075 - b : Nat) : Int) := by omega
  rw [hexp, zpow_neg, zpow_natCast, Nat.cast_mul, Nat.cast_pow, Nat.cast_ofNat,
    mul_inv_cancel_right₀ (pow_ne_zero _ two_ne_zero)]

/-- The datum of a natural number below `2 ^ 53`: its significand is the number shifted to 53 bits. -/
theorem realOfNat_eq_packReal {k : Nat} (hk : 0 < k) (hk53 : k < 2 ^ 53) :
    ∃ b M : Nat, 1 ≤ b ∧ b ≤ 1075 ∧ 2 ^ 52 ≤ M ∧ M < 2 ^ 53 ∧ M = k * 2 ^ (1075 - b) ∧
      realOfNat k = packReal b M := by
  have hlog : k.log2 < 53 := (Nat.log2_lt hk.ne').2 hk53
  obtain ⟨c, hc⟩ : ∃ c, c + k.log2 = 52 := ⟨52 - k.log2, by omega⟩
  have hpow : 2 ^ c * 2 ^ k.log2 = 2 ^ 52 := by rw [← pow_add, hc]
  have hlow : 2 ^ 52 ≤ k * 2 ^ c := by
    rw [← hpow, Nat.mul_comm]
    exact Nat.mul_le_mul_right _ (Nat.log2_self_le hk.ne')
  have hhigh : k * 2 ^ c < 2 ^ 53 := by
    calc k * 2 ^ c < 2 ^ (k.log2 + 1) * 2 ^ c := Nat.mul_lt_mul_of_pos_right Nat.lt_log2_self (by positivity)
      _ = 2 ^ 53 := by rw [← pow_add, show k.log2 + 1 + c = 53 by omega]
  have hquot : k * 2 ^ 52 / 2 ^ k.log2 = k * 2 ^ c := by
    rw [← hpow, ← Nat.mul_assoc, Nat.mul_div_cancel _ (by positivity)]
  have hshift : 1075 - (k.log2 + 1023) = c := by omega
  refine ⟨k.log2 + 1023, k * 2 ^ c, by omega, by omega, hlow, hhigh, by rw [hshift], ?_⟩
  rw [realOfNat, if_neg hk.ne', hquot, packReal, min_eq_left (by omega)]
  rfl

/-- The datum of a natural number below `2 ^ 53` denotes it. -/
theorem realNum_realOfNat {k : Nat} (hk53 : k < 2 ^ 53) : realNum (realOfNat k) = some (k : ℚ) := by
  rcases Nat.eq_zero_or_pos k with rfl | hk
  · exact realNum_zero
  · obtain ⟨b, M, hb1, hb2, hM1, hM2, hM, hpack⟩ := realOfNat_eq_packReal hk hk53
    rw [hpack, packReal_num hb1 (by omega) hM1 hM2.le, hM, shift_mul_scale hb2]

/-- Two packed significands of one magnitude are one datum: the same pair, or `2 ^ 53` carried into the exponent. -/
theorem packReal_congr {b b' M M' : Nat} (hb : 1 ≤ b) (hM1 : 2 ^ 52 ≤ M) (hM2 : M ≤ 2 ^ 53) (hM1' : 2 ^ 52 ≤ M')
    (hM2' : M' < 2 ^ 53) (h : M * 2 ^ b = M' * 2 ^ b') : packReal b M = packReal b' M' := by
  have hpos : 0 < 2 ^ b := by positivity
  rcases Nat.lt_or_ge b' b with hlt | hge
  · obtain ⟨d, rfl⟩ := Nat.exists_eq_add_of_lt hlt
    have hpos' : 0 < 2 ^ b' := by positivity
    have hshift : M * 2 ^ d * 2 = M' := by
      refine Nat.eq_of_mul_eq_mul_right hpos' ?_
      rw [← h]
      ring
    have : 1 ≤ 2 ^ d := Nat.one_le_two_pow
    nlinarith
  · obtain ⟨d, rfl⟩ := Nat.exists_eq_add_of_le hge
    have hshift : M = M' * 2 ^ d := by
      refine Nat.eq_of_mul_eq_mul_right hpos ?_
      rw [h]
      ring
    rcases d with _ | _ | d
    · obtain rfl : M = M' := by simpa using hshift
      rfl
    · have hcarry : (b - 1) * 2 ^ 52 + M = (b + (0 + 1) - 1) * 2 ^ 52 + M' := by omega
      rw [packReal, packReal, hcarry]
    · have : 1 ≤ 2 ^ d := Nat.one_le_two_pow
      rw [pow_succ, pow_succ] at hshift
      nlinarith

/-- A packed datum that denotes a natural number is that number's. -/
theorem packReal_eq_realOfNat {b M k : Nat} (hb1 : 1 ≤ b) (hb2 : b ≤ 1075) (hM1 : 2 ^ 52 ≤ M) (hM2 : M ≤ 2 ^ 53)
    (hk53 : k < 2 ^ 53) (h : M = k * 2 ^ (1075 - b)) : packReal b M = realOfNat k := by
  have hk : 0 < k := Nat.pos_of_ne_zero fun h0 => by simp [h0] at h; omega
  obtain ⟨b', M', hb1', hb2', hM1', hM2', hM', hpack⟩ := realOfNat_eq_packReal hk hk53
  rw [hpack]
  refine packReal_congr hb1 hM1 hM2 hM1' hM2' ?_
  rw [h, hM', Nat.mul_assoc, Nat.mul_assoc, ← pow_add, ← pow_add]
  congr 2
  omega

/-- The rounded root of a perfect square is exact: the root lies on the grid it is rounded to. -/
theorem roundedSqrt_of_square {m k : Nat} {e : Int} (hm : 0 < m) (he : -1074 ≤ e) (hk53 : k < 2 ^ 53)
    (h : (m : ℝ) * (2 : ℝ) ^ e = (k : ℝ) * k) : roundedSqrt m e = realOfNat k := by
  have hkR : (k : ℝ) < 2 ^ 53 := by exact_mod_cast hk53
  have hx : (m : ℝ) * (2 : ℝ) ^ e < 2 ^ 1024 := by
    calc (m : ℝ) * (2 : ℝ) ^ e = (k : ℝ) * k := h
      _ ≤ 2 ^ 53 * 2 ^ 53 := mul_le_mul hkR.le hkR.le (Nat.cast_nonneg k) (by positivity)
      _ < 2 ^ 1024 := by rw [← pow_add]; exact pow_lt_pow_right₀ (by norm_num) (by norm_num)
  obtain ⟨b, M, hb1, hb2, hM1, hM2, hpack, hroot, hround, -⟩ := roundedSqrt_spec hm he hx
  rw [h, Real.sqrt_mul_self (Nat.cast_nonneg k)] at hroot hround
  have hu : (0 : ℝ) < (2 : ℝ) ^ ((b : Int) - 1075) := by positivity
  have hb : b ≤ 1075 := by
    have hpow : (2 : ℝ) ^ (52 + ((b : Int) - 1075)) < (2 : ℝ) ^ (53 : Int) := by
      rw [zpow_add₀ (by norm_num)]
      exact_mod_cast hroot.trans_lt hkR
    have := (zpow_lt_zpow_iff_right₀ (by norm_num : (1 : ℝ) < 2)).1 hpow
    omega
  have hM : M = k * 2 ^ (1075 - b) := by
    rw [← shift_mul_scale (K := ℝ) hb k, ← sub_mul, abs_mul, abs_of_pos hu] at hround
    have hhalf : |(M : ℝ) - ((k * 2 ^ (1075 - b) : Nat) : ℝ)| < 1 := by nlinarith
    have hint : |(M : Int) - ((k * 2 ^ (1075 - b) : Nat) : Int)| < 1 := by exact_mod_cast hhalf
    rw [Int.abs_lt_one_iff] at hint
    omega
  rw [hpack]
  exact packReal_eq_realOfNat hb1 hb hM1 hM2 hk53 hM

/-- A value that denotes a positive perfect square has the datum of its root as its root, whatever its tag. -/
theorem sqrtFn_of_square {v : Value} {k : Nat} (hk : 0 < k) (hk53 : k < 2 ^ 53)
    (hv : v.num = some ((k * k : Nat) : ℚ)) : sqrtFn v = realOfNat k := by
  rcases sqrtFn_cases hv (Nat.cast_nonneg _) with ⟨hzero, -⟩ | ⟨m, e, hm, he, hnum, hroot⟩
  · have hsquare : k * k = 0 := by exact_mod_cast hzero
    exact absurd hsquare (Nat.mul_pos hk hk).ne'
  · rw [hroot]
    have hcast := congrArg (Rat.cast : ℚ → ℝ) hnum
    push_cast at hcast
    exact roundedSqrt_of_square hm he hk53 hcast

/-- The root of a perfect square denotes its root, of zero too. -/
theorem realNum_sqrtFn_of_square {v : Value} {k : Nat} (hk53 : k < 2 ^ 53)
    (hv : v.num = some ((k * k : Nat) : ℚ)) : realNum (sqrtFn v) = some (k : ℚ) := by
  rcases Nat.eq_zero_or_pos k with rfl | hk
  · rcases sqrtFn_cases hv (Nat.cast_nonneg _) with ⟨-, hroot, -⟩ | ⟨m, e, hm, -, hnum, -⟩
    · exact hroot
    · have hpos : (0 : ℚ) < (m : ℚ) * (2 : ℚ) ^ e := by positivity
      simp [hnum] at hpos
  · rw [sqrtFn_of_square hk hk53 hv, realNum_realOfNat hk53]

/-- A bound on a perfect square bounds its root. -/
theorem lt_of_mul_self_lt {k n : Nat} (h : k * k < n) : k < n := (Nat.le_mul_self k).trans_lt h

/-- Settles O36: both operands denote `k * k` (`realNum_realOfNat`), so both have the datum of `k` as their root
(`sqrtFn_of_square`). -/
theorem sqrtOfPerfectSquare : Obligations.SqrtOfPerfectSquare := by
  intro k hk
  have hk53 : k < 2 ^ 53 := lt_of_mul_self_lt hk
  rcases Nat.eq_zero_or_pos k with rfl | hpos
  · exact ⟨rfl, sqrtOfReal_of_zero rfl, realNum_zero⟩
  · exact ⟨sqrtFn_of_square hpos hk53 (congrArg some (Int.cast_natCast _)),
      sqrtFn_of_square hpos hk53 (realNum_realOfNat hk), realNum_realOfNat hk53⟩

/-- The default obeys the law of R162. -/
theorem default_lawful : RealArith.default.Lawful (fun r => (realNum r).map fun q : ℚ => (q : ℝ)) where
  isNegative_iff r x h := by
    obtain ⟨q, hq, rfl⟩ := Option.map_eq_some_iff.1 h
    exact (realIsNegative_iff hq).trans Rat.cast_lt_zero.symm
  sqrt_int k hk := by
    have hnum : (Value.int ((k * k : Nat) : Int) : Value).num = some ((k * k : Nat) : ℚ) :=
      congrArg some (Int.cast_natCast _)
    rw [default_sqrtFn, realNum_sqrtFn_of_square (lt_of_mul_self_lt (by omega)) hnum, Option.map_some, Rat.cast_natCast]
  sqrt_real k r hk h := by
    obtain ⟨q, hq, hqk⟩ := Option.map_eq_some_iff.1 h
    obtain rfl : q = ((k * k : Nat) : ℚ) := by exact_mod_cast hqk
    rw [default_sqrtFn, realNum_sqrtFn_of_square (v := .real r) (lt_of_mul_self_lt (by omega)) hq, Option.map_some,
      Rat.cast_natCast]

/-- Under a lawful `REAL` and `SQRT_FN`, a source that denotes `k * k` is not negative and has a root that denotes
`k`. -/
theorem RealArith.Lawful.sqrt_of_square {R : Type} {A : RealArith R} {num : R → Option ℝ} (hA : A.Lawful num) {k : Nat}
    (hk : k * k ≤ 65535) {v : Value R}
    (hv : v = .int ((k * k : Nat) : Int) ∨ ∃ r, v = .real r ∧ num r = some ((k * k : Nat) : ℝ)) :
    v.isNegativeBy A.isNegative = false ∧ num (A.sqrtFn v) = some (k : ℝ) := by
  rcases hv with rfl | ⟨r, rfl, hr⟩
  · refine ⟨?_, hA.sqrt_int k hk⟩
    rw [isNegativeBy_int]
    exact decide_eq_false (not_lt.2 (Int.natCast_nonneg _))
  · refine ⟨?_, hA.sqrt_real k r hk hr⟩
    rw [isNegativeBy_real, ← Bool.not_eq_true, hA.isNegative_iff r _ hr]
    exact not_lt.2 (Nat.cast_nonneg _)

/-- Settles O50: the default is lawful, and under every lawful engine SQRT completes with the source's root
(`execWith_sqrt_of_cells`), of which the law says the number. -/
theorem lawfulRootOfPerfectSquareIsExact : Obligations.LawfulRootOfPerfectSquareIsExact := by
  refine ⟨default_lawful, fun R A num hA b k s a base rest hm hstack hlow hhigh hdlow hdhigh hk hsource => ?_⟩
  obtain ⟨hsign, hroot⟩ := hA.sqrt_of_square hk hsource
  refine ⟨_, A.sqrtFn (s.mem.read a.toNat), execWith_sqrt_of_cells hstack ⟨hlow, hhigh⟩ hsign ⟨hdlow, hdhigh⟩, rfl,
    ?_, hroot⟩
  rw [complete_mem, read_write hm, if_pos rfl]

end Sys2Proof.Machine
end

section
/-! The bound on values (00_scope.md section 4, R11): every step keeps it, and under it SQRT meets no
negative source. -/

namespace Sys2Proof.Machine

/-- A bounded value denotes a number of `[0, 65535]`. -/
theorem num_of_bounded {v : Value} (h : v.bounded = true) : ∃ x, v.num = some x ∧ 0 ≤ x ∧ x ≤ 65535 := by
  cases v with
  | int n =>
    obtain ⟨hlow, hhigh⟩ := of_decide_eq_true h
    exact ⟨n, rfl, by exact_mod_cast hlow, by exact_mod_cast hhigh⟩
  | real r =>
    have hlt : r.toNat < 0x4070000000000000 := of_decide_eq_true h
    have hsign : realSign r = false := by
      simp only [realSign, BitVec.msb_eq_decide, decide_eq_false_iff_not]
      omega
    have hexp : realExponent r ≤ 1030 := by
      unfold realExponent
      omega
    have hscale : realScale r ≤ -45 := by
      unfold realScale
      split <;> omega
    have hsig : (realSignificand r : ℚ) ≤ 2 ^ 53 := by exact_mod_cast (realSignificand_lt r).le
    refine ⟨_, realNum_eq_some.2 ⟨by omega, rfl⟩, ?_, ?_⟩
    · simp only [hsign, Bool.false_eq_true, if_false, one_mul]
      positivity
    · simp only [hsign, Bool.false_eq_true, if_false, one_mul]
      calc (realSignificand r : ℚ) * (2 : ℚ) ^ realScale r
          ≤ 2 ^ 53 * (2 : ℚ) ^ (-45 : Int) :=
            mul_le_mul hsig (zpow_le_zpow_right₀ (by norm_num) hscale) (by positivity) (by positivity)
        _ ≤ 65535 := by norm_num

/-- The rounded root of a number up to 65535 lies below 256: the exact root is below it by more than half a unit of the
last place. -/
theorem roundedSqrt_toNat_lt {m : Nat} {e : Int} (hm : 0 < m) (he : -1074 ≤ e)
    (hx : (m : ℝ) * (2 : ℝ) ^ e ≤ 65535) : (roundedSqrt m e).toNat < 0x4070000000000000 := by
  have hrange : (m : ℝ) * (2 : ℝ) ^ e < 2 ^ 1024 := by
    calc (m : ℝ) * (2 : ℝ) ^ e ≤ 65535 := hx
      _ < 2 ^ 16 := by norm_num
      _ ≤ 2 ^ 1024 := pow_le_pow_right₀ (by norm_num) (by norm_num)
  obtain ⟨b, M, hb1, hb2, -, hM2, hpack, hroot, hround, -⟩ := roundedSqrt_spec hm he hrange
  have hexact : Real.sqrt ((m : ℝ) * (2 : ℝ) ^ e) ≤ 255.999 :=
    Real.sqrt_le_iff.2 ⟨by norm_num, hx.trans (by norm_num)⟩
  have hb : b ≤ 1030 := by
    have hpow : (2 : ℝ) ^ (52 + ((b : Int) - 1075)) < (2 : ℝ) ^ (8 : Int) := by
      rw [zpow_add₀ (by norm_num)]
      calc (2 : ℝ) ^ (52 : Int) * (2 : ℝ) ^ ((b : Int) - 1075) ≤ 255.999 := by
            exact_mod_cast hroot.trans hexact
        _ < (2 : ℝ) ^ (8 : Int) := by norm_num
    have := (zpow_lt_zpow_iff_right₀ (by norm_num : (1 : ℝ) < 2)).1 hpow
    omega
  rw [hpack, packReal_toNat hb1 hb2 hM2]
  by_cases htop : b = 1030 ∧ M = 2 ^ 53
  · obtain ⟨rfl, rfl⟩ := htop
    have hclose := (abs_le.1 hround).2
    norm_num at hclose hexact
    linarith
  · omega

/-- R11: the root of a bounded value is a bounded real. -/
theorem sqrtFn_bounded {v : Value} (h : v.bounded = true) : (Value.real (sqrtFn v)).bounded = true := by
  obtain ⟨x, hnum, hlow, hhigh⟩ := num_of_bounded h
  rcases sqrtFn_cases hnum hlow with ⟨-, -, hzero | hself⟩ | ⟨m, e, hm, he, rfl, hroot⟩
  · rw [hzero]
    rfl
  · rwa [← hself]
  · rw [hroot]
    refine decide_eq_true (roundedSqrt_toNat_lt hm he ?_)
    have hcast := (Rat.cast_le (K := ℝ)).2 hhigh
    push_cast at hcast
    exact hcast

/-- A bounded value is not negative. -/
theorem not_isNegative_of_bounded {v : Value} (h : v.bounded = true) : v.isNegative = false := by
  obtain ⟨x, hnum, hlow, -⟩ := num_of_bounded h
  rw [← Bool.not_eq_true, isNegative_iff hnum]
  exact not_lt.2 hlow

/-- Every cell of a bounded state holds a bounded value, the unlisted ones `Int(0)`. -/
theorem read_bounded {s : State} (h : s.ValuesBounded) (i : Nat) : (s.mem.read i).bounded = true := by
  rcases read_cases s.mem i with hzero | hlisted
  · rw [hzero]
    rfl
  · exact h.2 _ hlisted

/-- An instruction that the decoder can answer completes with bounded values: LOAD_CONST's operand has 16 bits, and a
root is bounded. -/
theorem complete_valuesBounded {i : Instr} {s : State} {k : List Value} {m : Memory} (h : s.ValuesBounded)
    (hwf : i.wellFormed = true) (hbody : bodyWith RealArith.default i s = .ok (k, m)) :
    (s.complete k m).ValuesBounded := by
  obtain ⟨hstack, hmem⟩ := h
  refine ⟨fun v hv => ?_, fun c hc => ?_⟩
  · rcases bodyWith_stack_cases hbody hv with hold | ⟨j, rfl⟩ | ⟨b, rfl, rfl⟩
    · exact hstack v hold
    · exact read_bounded ⟨hstack, hmem⟩ j
    · have hb : b ≤ 65535 := of_decide_eq_true hwf
      exact decide_eq_true (by omega)
  · rw [complete_mem] at hc
    rcases bodyWith_mem_cases hbody with rfl | ⟨j, v, -, rfl, hv⟩
    · exact hmem c hc
    · rcases mem_write hc with ⟨rfl, -⟩ | hold
      · rcases hv with hv | ⟨l, -, rfl⟩
        · exact hstack v hv
        · exact sqrtFn_bounded (read_bounded ⟨hstack, hmem⟩ l)
      · exact hmem c hold

/-- Settles O33: a completed instruction was decoded, so it is well-formed (`complete_valuesBounded`); every other step
leaves stack and memory as they were. -/
theorem stepKeepsValuesBounded : Obligations.StepKeepsValuesBounded := by
  intro s t h hstep
  obtain ⟨-, prog, -, hcases⟩ := step_cases hstep
  rcases hcases with ⟨-, rfl⟩ | ⟨-, i, hd, hexec⟩ | ⟨-, op, -, rfl⟩
  · exact h
  · rcases exec_cases hexec with ⟨k, m, hbody, rfl⟩ | ⟨r, -, rfl⟩
    · exact complete_valuesBounded h (decode_wellFormed hd) hbody
    · exact h
  · exact h

/-- Settles O34: SQRT alone raises the domain fault, for a cell that holds a negative value (`bodyWith_error_kind`), and
no bounded value is negative. -/
theorem sqrtDomainNeverFires : Obligations.SqrtDomainNeverFires := by
  intro s t h hstep r hr
  obtain ⟨hs, prog, -, hcases⟩ := step_cases hstep
  rcases hcases with ⟨-, rfl⟩ | ⟨-, i, -, hexec⟩ | ⟨-, op, -, rfl⟩
  · cases hr
  · rcases exec_cases hexec with ⟨k, m, -, rfl⟩ | ⟨q, hbody, rfl⟩
    · cases hs.symm.trans hr
    · obtain rfl := Status.fault.inj hr
      rcases bodyWith_error_kind hbody with ⟨-, hkind⟩ | ⟨j, hneg, -⟩
      · exact hkind
      · rw [isNegativeBy_default, not_isNegative_of_bounded (read_bounded h j)] at hneg
        cases hneg
  · obtain rfl := Status.fault.inj hr
    exact nofun

end Sys2Proof.Machine
end
